-- ==== Sys2Proof/Word.lean ====
section
/-! DEFINITION. The word types of the machine (spec/00_scope.md R7, spec/10_state.md R10): every value is an unsigned
integer of a stated width. -/

namespace Sys2Proof

/-- A general register, a memory cell, a timer, an immediate byte: 8 bits. -/
abbrev Byte := BitVec 8

/-- An instruction word, or the index register: 16 bits. -/
abbrev Word := BitVec 16

/-- A memory address as `PC`, a stack entry and the `addr` field hold it: 12 bits (D5). -/
abbrev Addr := BitVec 12

/-- One nibble of an instruction word, or the stack pointer: 4 bits. -/
abbrev Nibble := BitVec 4

/-- A register number, V0 to VF: one hexadecimal digit (R11). -/
abbrev RegIx := Fin 16

end Sys2Proof
end

