-- ==== Sys2Proof/Syntax.lean ====
section
/-! DEFINITION. The instructions (spec/30_encoding.md R66): one constructor per row of spec/opcode_table.json, in the
table's order. A constructor carries EVERY field its row has, the ignored ones too (R68), so that an instruction and its
word determine each other (log entry 9). -/

namespace Sys2Proof

inductive Instr where
  /-- `00Cn` `SCD n`: scroll down `n` rows (R143). -/
  | scd (n : Nibble)
  /-- `00E0` `CLS`: clear the screen (R140). -/
  | cls
  /-- `00EE` `RET`: return from subroutine (R82). -/
  | ret
  /-- `00FB` `SCR`: scroll right 4 pixels (R144). -/
  | scr
  /-- `00FC` `SCL`: scroll left 4 pixels (R145). -/
  | scl
  /-- `00FD` `EXIT`: request exit (R88). -/
  | exit
  /-- `00FE` `LOW`: switch to Low mode (R141). -/
  | low
  /-- `00FF` `HIGH`: switch to High mode (R142). -/
  | high
  /-- `1nnn` `JP addr` (R80). -/
  | jp (addr : Addr)
  /-- `2nnn` `CALL addr` (R81). -/
  | call (addr : Addr)
  /-- `3xkk` `SE Vx, byte` (R84). -/
  | seByte (x : RegIx) (kk : Byte)
  /-- `4xkk` `SNE Vx, byte` (R85). -/
  | sneByte (x : RegIx) (kk : Byte)
  /-- `5xy0` `SE Vx, Vy` (R86). -/
  | seReg (x y : RegIx)
  /-- `6xkk` `LD Vx, byte` (R101). -/
  | ldByte (x : RegIx) (kk : Byte)
  /-- `7xkk` `ADD Vx, byte` (R102). -/
  | addByte (x : RegIx) (kk : Byte)
  /-- `8xy0` `LD Vx, Vy` (R103). -/
  | ldReg (x y : RegIx)
  /-- `8xy1` `OR Vx, Vy` (R104). -/
  | orReg (x y : RegIx)
  /-- `8xy2` `AND Vx, Vy` (R105). -/
  | andReg (x y : RegIx)
  /-- `8xy3` `XOR Vx, Vy` (R106). -/
  | xorReg (x y : RegIx)
  /-- `8xy4` `ADD Vx, Vy` (R107). -/
  | addReg (x y : RegIx)
  /-- `8xy5` `SUB Vx, Vy` (R108). -/
  | sub (x y : RegIx)
  /-- `8xy6` `SHR Vx`; the field `y` is ignored (R109). -/
  | shr (x y : RegIx)
  /-- `8xy7` `SUBN Vx, Vy` (R110). -/
  | subn (x y : RegIx)
  /-- `8xyE` `SHL Vx`; the field `y` is ignored (R111). -/
  | shl (x y : RegIx)
  /-- `9xy0` `SNE Vx, Vy` (R87). -/
  | sneReg (x y : RegIx)
  /-- `Annn` `LD I, addr` (R120). -/
  | ldI (addr : Addr)
  /-- `Bnnn` `JP V0, addr` (R83). -/
  | jpV0 (addr : Addr)
  /-- `Cxkk` `RND Vx, byte` (R112). -/
  | rnd (x : RegIx) (kk : Byte)
  /-- `Dxyn` `DRW Vx, Vy, n`, `n` ≠ 0 (R146); `n` = 0 is the row below, and WellFormed.lean checks it. -/
  | drw (x y : RegIx) (n : Nibble)
  /-- `Dxy0` `DRW Vx, Vy, 0`: the wide draw (R147). -/
  | drwWide (x y : RegIx)
  /-- `Ex9E` `SKP Vx` (R160). -/
  | skp (x : RegIx)
  /-- `ExA1` `SKNP Vx` (R161). -/
  | sknp (x : RegIx)
  /-- `Fx07` `LD Vx, DT` (R163). -/
  | ldVxDt (x : RegIx)
  /-- `Fx0A` `LD Vx, K` (R162). -/
  | ldVxK (x : RegIx)
  /-- `Fx15` `LD DT, Vx` (R164). -/
  | ldDtVx (x : RegIx)
  /-- `Fx18` `LD ST, Vx` (R165). -/
  | ldStVx (x : RegIx)
  /-- `Fx1E` `ADD I, Vx` (R121). -/
  | addI (x : RegIx)
  /-- `Fx29` `LD F, Vx` (R122). -/
  | ldF (x : RegIx)
  /-- `Fx30` `LD HF, Vx` (R123). -/
  | ldHf (x : RegIx)
  /-- `Fx33` `LD B, Vx` (R124). -/
  | ldB (x : RegIx)
  /-- `Fx55` `LD [I], Vx` (R125). -/
  | storeRegs (x : RegIx)
  /-- `Fx65` `LD Vx, [I]` (R126). -/
  | loadRegs (x : RegIx)
  /-- `Fx75` `LD R, Vx`; the field `x` is ignored (R128). -/
  | saveFlags (x : RegIx)
  /-- `Fx85` `LD Vx, R`; the field `x` is ignored (R129). -/
  | loadFlags (x : RegIx)
  deriving DecidableEq, Repr

end Sys2Proof
end

