-- ==== Sys2Proof/WellFormed.lean ====
section
/-! DEFINITION. Which terms of `Instr` are instructions (spec/30_encoding.md R65, R66). Field widths are in the types; one
check is left. -/

namespace Sys2Proof

/-- Why a term of `Instr` is no instruction. -/
inductive IllFormed where
  /-- `DRW Vx, Vy, n` with `n` = 0: that word belongs to the wide-draw row, which wins (R65). -/
  | drawOfZeroRows
  deriving DecidableEq, Repr

/-- The check that an instruction fails, if any. -/
def Instr.illFormed : Instr → Option IllFormed
  | .drw _ _ n => if n = 0 then some .drawOfZeroRows else none
  | _ => none

/-- The instruction has an encoding of its own. -/
def Instr.wf (i : Instr) : Bool := i.illFormed.isNone

end Sys2Proof
end

