-- ==== Sys2Proof/Decode.lean ====
section
/-! DEFINITION. Fields, decoder and encoder of the 16-bit instruction word (spec/30_encoding.md R60 to R68). The
decoder is a dispatch on the class and then on a sub-field, as R65 says; the encoder writes each row's pattern of
R66. -/

namespace Sys2Proof

/-- The fields of a word (R61); they overlap: `kk = y ++ n`, `addr = x ++ y ++ n`. -/
structure Fields where
  cls : Nibble
  x : RegIx
  y : RegIx
  n : Nibble
  kk : Byte
  addr : Addr
  deriving DecidableEq, Repr

/-- R61: `class = w[15:12]`, `x = w[11:8]`, `y = w[7:4]`, `n = w[3:0]`, `kk = w[7:0]`, `addr = w[11:0]`. -/
def fieldsOf (w : Word) : Fields where
  cls := w.extractLsb' 12 4
  x := (w.extractLsb' 8 4).toFin
  y := (w.extractLsb' 4 4).toFin
  n := w.extractLsb' 0 4
  kk := w.extractLsb' 0 8
  addr := w.extractLsb' 0 12

/-- Class 0x0: the whole of `addr` selects (R65). -/
def decodeClass0 (f : Fields) : Option Instr :=
  if f.addr.extractLsb' 4 8 = 0x0C#8 then some (.scd f.n)
  else if f.addr = 0x0E0#12 then some .cls
  else if f.addr = 0x0EE#12 then some .ret
  else if f.addr = 0x0FB#12 then some .scr
  else if f.addr = 0x0FC#12 then some .scl
  else if f.addr = 0x0FD#12 then some .exit
  else if f.addr = 0x0FE#12 then some .low
  else if f.addr = 0x0FF#12 then some .high
  else none

/-- Class 0x8: `n` selects (R65). -/
def decodeClass8 (f : Fields) : Option Instr :=
  if f.n = 0x0#4 then some (.ldReg f.x f.y)
  else if f.n = 0x1#4 then some (.orReg f.x f.y)
  else if f.n = 0x2#4 then some (.andReg f.x f.y)
  else if f.n = 0x3#4 then some (.xorReg f.x f.y)
  else if f.n = 0x4#4 then some (.addReg f.x f.y)
  else if f.n = 0x5#4 then some (.sub f.x f.y)
  else if f.n = 0x6#4 then some (.shr f.x f.y)
  else if f.n = 0x7#4 then some (.subn f.x f.y)
  else if f.n = 0xE#4 then some (.shl f.x f.y)
  else none

/-- Class 0xE: `kk` selects (R65). -/
def decodeClassE (f : Fields) : Option Instr :=
  if f.kk = 0x9E#8 then some (.skp f.x)
  else if f.kk = 0xA1#8 then some (.sknp f.x)
  else none

/-- Class 0xF: `kk` selects (R65). -/
def decodeClassF (f : Fields) : Option Instr :=
  if f.kk = 0x07#8 then some (.ldVxDt f.x)
  else if f.kk = 0x0A#8 then some (.ldVxK f.x)
  else if f.kk = 0x15#8 then some (.ldDtVx f.x)
  else if f.kk = 0x18#8 then some (.ldStVx f.x)
  else if f.kk = 0x1E#8 then some (.addI f.x)
  else if f.kk = 0x29#8 then some (.ldF f.x)
  else if f.kk = 0x30#8 then some (.ldHf f.x)
  else if f.kk = 0x33#8 then some (.ldB f.x)
  else if f.kk = 0x55#8 then some (.storeRegs f.x)
  else if f.kk = 0x65#8 then some (.loadRegs f.x)
  else if f.kk = 0x75#8 then some (.saveFlags f.x)
  else if f.kk = 0x85#8 then some (.loadFlags f.x)
  else none

/-- The dispatch of R65 and R66; `none` is "any unmatched combination at any dispatch level" (R67). -/
def decodeFields (f : Fields) : Option Instr :=
  match f.cls with
  | 0x0#4 => decodeClass0 f
  | 0x1#4 => some (.jp f.addr)
  | 0x2#4 => some (.call f.addr)
  | 0x3#4 => some (.seByte f.x f.kk)
  | 0x4#4 => some (.sneByte f.x f.kk)
  | 0x5#4 => if f.n = 0x0#4 then some (.seReg f.x f.y) else none
  | 0x6#4 => some (.ldByte f.x f.kk)
  | 0x7#4 => some (.addByte f.x f.kk)
  | 0x8#4 => decodeClass8 f
  | 0x9#4 => if f.n = 0x0#4 then some (.sneReg f.x f.y) else none
  | 0xA#4 => some (.ldI f.addr)
  | 0xB#4 => some (.jpV0 f.addr)
  | 0xC#4 => some (.rnd f.x f.kk)
  | 0xD#4 => if f.n = 0x0#4 then some (.drwWide f.x f.y) else some (.drw f.x f.y f.n)
  | 0xE#4 => decodeClassE f
  | 0xF#4 => decodeClassF f
  | _ => none

/-- The instruction a word stands for; `none` for the unrecognized words of R67. -/
def decodeWord (w : Word) : Option Instr := decodeFields (fieldsOf w)

/-- Two bytes as a word, the byte of the lower address first (R43: `word = MemRead(PC, 1) ++ MemRead(PC + 1, 1)`). -/
def wordOfBytes (hi lo : Byte) : Word := hi ++ lo

/-- Why a list of bytes holds no instruction at its head. -/
inductive DecodeError where
  /-- Fewer than the two bytes every instruction takes (R60). -/
  | truncated
  /-- The word matches no row of the opcode map (R67). -/
  | unrecognizedOpcode (w : Word)
  deriving DecidableEq, Repr

/-- The instruction at the head of a list of bytes, and the bytes after it (R43, R60). -/
def decode : List Byte → Except DecodeError (Instr × List Byte)
  | hi :: lo :: rest =>
    match decodeWord (wordOfBytes hi lo) with
    | some i => .ok (i, rest)
    | none => .error (.unrecognizedOpcode (wordOfBytes hi lo))
  | _ => .error .truncated

/-- A word from its class and its address field: the patterns `cnnn`. -/
def wordOfAddr (c : Nibble) (addr : Addr) : Word := c ++ addr

/-- A word from its class, `x` and `kk`: the patterns `cxkk`. -/
def wordOfByte (c : Nibble) (x : RegIx) (kk : Byte) : Word := c ++ (BitVec.ofFin (w := 4) x ++ kk)

/-- A word from its four nibbles: the patterns `cxyn`. -/
def wordOfNibbles (c : Nibble) (x y : RegIx) (n : Nibble) : Word :=
  c ++ (BitVec.ofFin (w := 4) x ++ (BitVec.ofFin (w := 4) y ++ n))

/-- The word of an instruction, from the pattern column of R66. -/
def encode : Instr → Word
  | .scd n => wordOfNibbles 0x0#4 0x0 0xC n
  | .cls => 0x00E0#16
  | .ret => 0x00EE#16
  | .scr => 0x00FB#16
  | .scl => 0x00FC#16
  | .exit => 0x00FD#16
  | .low => 0x00FE#16
  | .high => 0x00FF#16
  | .jp addr => wordOfAddr 0x1#4 addr
  | .call addr => wordOfAddr 0x2#4 addr
  | .seByte x kk => wordOfByte 0x3#4 x kk
  | .sneByte x kk => wordOfByte 0x4#4 x kk
  | .seReg x y => wordOfNibbles 0x5#4 x y 0x0#4
  | .ldByte x kk => wordOfByte 0x6#4 x kk
  | .addByte x kk => wordOfByte 0x7#4 x kk
  | .ldReg x y => wordOfNibbles 0x8#4 x y 0x0#4
  | .orReg x y => wordOfNibbles 0x8#4 x y 0x1#4
  | .andReg x y => wordOfNibbles 0x8#4 x y 0x2#4
  | .xorReg x y => wordOfNibbles 0x8#4 x y 0x3#4
  | .addReg x y => wordOfNibbles 0x8#4 x y 0x4#4
  | .sub x y => wordOfNibbles 0x8#4 x y 0x5#4
  | .shr x y => wordOfNibbles 0x8#4 x y 0x6#4
  | .subn x y => wordOfNibbles 0x8#4 x y 0x7#4
  | .shl x y => wordOfNibbles 0x8#4 x y 0xE#4
  | .sneReg x y => wordOfNibbles 0x9#4 x y 0x0#4
  | .ldI addr => wordOfAddr 0xA#4 addr
  | .jpV0 addr => wordOfAddr 0xB#4 addr
  | .rnd x kk => wordOfByte 0xC#4 x kk
  | .drw x y n => wordOfNibbles 0xD#4 x y n
  | .drwWide x y => wordOfNibbles 0xD#4 x y 0x0#4
  | .skp x => wordOfByte 0xE#4 x 0x9E#8
  | .sknp x => wordOfByte 0xE#4 x 0xA1#8
  | .ldVxDt x => wordOfByte 0xF#4 x 0x07#8
  | .ldVxK x => wordOfByte 0xF#4 x 0x0A#8
  | .ldDtVx x => wordOfByte 0xF#4 x 0x15#8
  | .ldStVx x => wordOfByte 0xF#4 x 0x18#8
  | .addI x => wordOfByte 0xF#4 x 0x1E#8
  | .ldF x => wordOfByte 0xF#4 x 0x29#8
  | .ldHf x => wordOfByte 0xF#4 x 0x30#8
  | .ldB x => wordOfByte 0xF#4 x 0x33#8
  | .storeRegs x => wordOfByte 0xF#4 x 0x55#8
  | .loadRegs x => wordOfByte 0xF#4 x 0x65#8
  | .saveFlags x => wordOfByte 0xF#4 x 0x75#8
  | .loadFlags x => wordOfByte 0xF#4 x 0x85#8

/-- The high byte of a word, stored at the lower address (R43). -/
def hiByte (w : Word) : Byte := w.extractLsb' 8 8

/-- The low byte of a word. -/
def loByte (w : Word) : Byte := w.extractLsb' 0 8

/-- The bytes of an instruction in memory order. -/
def encodeBytes (i : Instr) : List Byte := [hiByte (encode i), loByte (encode i)]

/-- The instruction word of an opcode-table entry of `nbits` bits: the bits above them are 0. -/
def tableWord (nbits w : Nat) : Word := BitVec.ofNat 16 (w % 2 ^ nbits)

/-- What the decoder reads from the bytes of an opcode-table word (one 16-bit word, high byte first). -/
def decodeTableWord (nbits w : Nat) : Option Instr :=
  match decode [hiByte (tableWord nbits w), loByte (tableWord nbits w)] with
  | .ok (i, _) => some i
  | .error _ => none

/-! ### Assembler syntax -/

/-- One hexadecimal digit. -/
def hexDigit (d : RegIx) : String :=
  #v["0", "1", "2", "3", "4", "5", "6", "7", "8", "9", "A", "B", "C", "D", "E", "F"][d]

/-- A register name, V0 to VF (R11, R70). -/
def regText (r : RegIx) : String := "V" ++ hexDigit r

/-- An 8-bit literal. -/
def byteText (b : Byte) : String := "0x" ++ hexDigit (b.extractLsb' 4 4).toFin ++ hexDigit (b.extractLsb' 0 4).toFin

/-- A 12-bit literal. -/
def addrText (a : Addr) : String :=
  "0x" ++ hexDigit (a.extractLsb' 8 4).toFin ++ hexDigit (a.extractLsb' 4 4).toFin ++ hexDigit (a.extractLsb' 0 4).toFin

/-- A mnemonic with two operands, the destination first. -/
def asm2 (mnemonic a b : String) : String := mnemonic ++ " " ++ a ++ ", " ++ b

/-- An instruction in the spec's assembler style (R70, the mnemonic column of R66; general knowledge G2, log entry 7). It is
text for the reader: no rule of the machine reads it. -/
def Instr.text : Instr → String
  | .scd n => "SCD " ++ toString n.toNat
  | .cls => "CLS"
  | .ret => "RET"
  | .scr => "SCR"
  | .scl => "SCL"
  | .exit => "EXIT"
  | .low => "LOW"
  | .high => "HIGH"
  | .jp addr => "JP " ++ addrText addr
  | .call addr => "CALL " ++ addrText addr
  | .seByte x kk => asm2 "SE" (regText x) (byteText kk)
  | .sneByte x kk => asm2 "SNE" (regText x) (byteText kk)
  | .seReg x y => asm2 "SE" (regText x) (regText y)
  | .ldByte x kk => asm2 "LD" (regText x) (byteText kk)
  | .addByte x kk => asm2 "ADD" (regText x) (byteText kk)
  | .ldReg x y => asm2 "LD" (regText x) (regText y)
  | .orReg x y => asm2 "OR" (regText x) (regText y)
  | .andReg x y => asm2 "AND" (regText x) (regText y)
  | .xorReg x y => asm2 "XOR" (regText x) (regText y)
  | .addReg x y => asm2 "ADD" (regText x) (regText y)
  | .sub x y => asm2 "SUB" (regText x) (regText y)
  | .shr x _ => "SHR " ++ regText x
  | .subn x y => asm2 "SUBN" (regText x) (regText y)
  | .shl x _ => "SHL " ++ regText x
  | .sneReg x y => asm2 "SNE" (regText x) (regText y)
  | .ldI addr => asm2 "LD" "I" (addrText addr)
  | .jpV0 addr => asm2 "JP" "V0" (addrText addr)
  | .rnd x kk => asm2 "RND" (regText x) (byteText kk)
  | .drw x y n => asm2 "DRW" (regText x) (regText y) ++ ", " ++ toString n.toNat
  | .drwWide x y => asm2 "DRW" (regText x) (regText y) ++ ", 0"
  | .skp x => "SKP " ++ regText x
  | .sknp x => "SKNP " ++ regText x
  | .ldVxDt x => asm2 "LD" (regText x) "DT"
  | .ldVxK x => asm2 "LD" (regText x) "K"
  | .ldDtVx x => asm2 "LD" "DT" (regText x)
  | .ldStVx x => asm2 "LD" "ST" (regText x)
  | .addI x => asm2 "ADD" "I" (regText x)
  | .ldF x => asm2 "LD" "F" (regText x)
  | .ldHf x => asm2 "LD" "HF" (regText x)
  | .ldB x => asm2 "LD" "B" (regText x)
  | .storeRegs x => asm2 "LD" "[I]" (regText x)
  | .loadRegs x => asm2 "LD" (regText x) "[I]"
  | .saveFlags x => asm2 "LD" "R" (regText x)
  | .loadFlags x => asm2 "LD" (regText x) "R"

/-- What an assembler should emit: 0 in an ignored `y`, 7 in the ignored `x` of the flags transfers (R68). -/
def Instr.canonical : Instr → Instr
  | .shr x _ => .shr x 0
  | .shl x _ => .shl x 0
  | .saveFlags _ => .saveFlags 7
  | .loadFlags _ => .loadFlags 7
  | i => i

end Sys2Proof
end

