-- ==== Sys2Proof/Config.lean ====
section
/-! DEFINITION. What an instance of the core fixes (spec/00_scope.md R6, spec/10_state.md R29(b)) and the free values of
the model. The values the spec takes for the fixed parameters stand in Sys2Proof/Machine/Params.lean. -/

namespace Sys2Proof

/-- The configuration of one instance: it never changes while the machine runs (R6: "a configuration field of the
model, not state"). The state carries it so that every value of an open parameter is covered (log entry 4). -/
structure Config.Instance where
  /-- `PROG_BASE`: where a program is loaded and where `init` and `reset` point `PC` (R6, D1). -/
  progBase : Addr
  /-- `FONT_LO_BASE`: address of the low glyph set (R6, D2); the high one follows it (`fontHiBase`, Params.lean). -/
  fontLoBase : Addr
  /-- `GLYPH_LO`: 16 glyphs of 5 bytes (R47). -/
  glyphLo : Vector (Vector Byte 5) 16
  /-- `GLYPH_HI`: 10 glyphs of 10 bytes (R48). -/
  glyphHi : Vector (Vector Byte 10) 10
  /-- `ROM`: the program bytes that `init` was given and that `reset` loads again (R190, R191). -/
  rom : List Byte
  /-- `ADDI_CARRY`: does `ADD I, Vx` write its carry to VF (R121, D19)? -/
  addiCarry : Bool
  /-- `LORES_DOUBLED`: is the low-resolution picture drawn in 2 × 2 blocks (R148, D13)? -/
  loresDoubled : Bool
  deriving DecidableEq, Repr

/-- The random bytes: a FREE VALUE, one for each draw (R112: "free and under no law"; log entry 2). It has no body, so
nothing can be proved of a byte it gives. -/
opaque Config.rnd : Nat → Byte

end Sys2Proof
end

