-- ==== Sys2Proof/Machine/Params.lean ====
section
/-! DEFINITION. The values the spec takes for the parameters the source leaves open (spec/00_scope.md R6), the default
glyph tables (spec/20_memory.md R47, R48) and the initial memory image (R46). -/

namespace Sys2Proof.Machine

/-- `MEM_SIZE` (R5). -/
def memSize : Nat := 4096

/-- `FONT_HI_BASE` of an instance = `FONT_LO_BASE` + 80: the source fixes it, "immediately following" the low glyph set
(R5, R6). -/
def fontHiBase (c : Config.Instance) : Nat := c.fontLoBase.toNat + 80

/-- Where the glyph sets of an instance end: 100 bytes after `FONT_HI_BASE` (R46). -/
def fontEnd (c : Config.Instance) : Nat := fontHiBase c + 100

/-- The most bytes a `ROM` may have: `MEM_SIZE` − `PROG_BASE` (R6, R49). -/
def maxRom (c : Config.Instance) : Nat := memSize - c.progBase.toNat

/-- `SCROLL_STEP`, the distance of `SCR` and `SCL` (R5). -/
def scrollStep : Nat := 4

/-- The value of `DIRTY` after `init` and `reset` (R23, R30, D24). -/
def dirtyAfterReset : Bool := true

/-- `GLYPH_LO`, the customary low glyph table of R47 (PRESUMED: the spec takes it from general knowledge, G3; log
entry 6). -/
def glyphLoDefault : Vector (Vector Byte 5) 16 :=
  #v[#v[0xF0, 0x90, 0x90, 0x90, 0xF0],
     #v[0x20, 0x60, 0x20, 0x20, 0x70],
     #v[0xF0, 0x10, 0xF0, 0x80, 0xF0],
     #v[0xF0, 0x10, 0xF0, 0x10, 0xF0],
     #v[0x90, 0x90, 0xF0, 0x10, 0x10],
     #v[0xF0, 0x80, 0xF0, 0x10, 0xF0],
     #v[0xF0, 0x80, 0xF0, 0x90, 0xF0],
     #v[0xF0, 0x10, 0x20, 0x40, 0x40],
     #v[0xF0, 0x90, 0xF0, 0x90, 0xF0],
     #v[0xF0, 0x90, 0xF0, 0x10, 0xF0],
     #v[0xF0, 0x90, 0xF0, 0x90, 0x90],
     #v[0xE0, 0x90, 0xE0, 0x90, 0xE0],
     #v[0xF0, 0x80, 0x80, 0x80, 0xF0],
     #v[0xE0, 0x90, 0x90, 0x90, 0xE0],
     #v[0xF0, 0x80, 0xF0, 0x80, 0xF0],
     #v[0xF0, 0x80, 0xF0, 0x80, 0x80]]

/-- `GLYPH_HI`, the high glyph table of R48 (PRESUMED, as above; log entry 6). -/
def glyphHiDefault : Vector (Vector Byte 10) 10 :=
  #v[#v[0x3C, 0x7E, 0xE7, 0xC3, 0xC3, 0xC3, 0xC3, 0xE7, 0x7E, 0x3C],
     #v[0x18, 0x38, 0x58, 0x18, 0x18, 0x18, 0x18, 0x18, 0x18, 0x3C],
     #v[0x3E, 0x7F, 0xC3, 0x06, 0x0C, 0x18, 0x30, 0x60, 0xFF, 0xFF],
     #v[0x3C, 0x7E, 0xC3, 0x03, 0x0E, 0x0E, 0x03, 0xC3, 0x7E, 0x3C],
     #v[0x06, 0x0E, 0x1E, 0x36, 0x66, 0xC6, 0xFF, 0xFF, 0x06, 0x06],
     #v[0xFF, 0xFF, 0xC0, 0xC0, 0xFC, 0xFE, 0x03, 0xC3, 0x7E, 0x3C],
     #v[0x3E, 0x7C, 0xC0, 0xC0, 0xFC, 0xFE, 0xC3, 0xC3, 0x7E, 0x3C],
     #v[0xFF, 0xFF, 0x03, 0x06, 0x0C, 0x18, 0x30, 0x60, 0x60, 0x60],
     #v[0x3C, 0x7E, 0xC3, 0xC3, 0x7E, 0x7E, 0xC3, 0xC3, 0x7E, 0x3C],
     #v[0x3C, 0x7E, 0xC3, 0xC3, 0x7F, 0x3F, 0x03, 0x03, 0x3E, 0x7C]]

/-- The instance of `State.reset`: the spec's addresses (D1, D2), tables and values, `LORES_DOUBLED` at its recommended
false (D13), and no program (log entries 4, 8 and 15). -/
def defaultInstance : Config.Instance where
  progBase := 0x200
  fontLoBase := 0x000
  glyphLo := glyphLoDefault
  glyphHi := glyphHiDefault
  rom := []
  addiCarry := true
  loresDoubled := false

/-- `FLAGS_INIT` of `State.reset`: DESIGN CHOICE, the spec leaves the 8 bytes open (R20, D25; log entry 3). -/
def defaultFlags : Vector Byte 8 := Vector.replicate 8 0

/-- Byte `k` of the low glyph set: row `k mod 5` of digit `k div 5` (R46). -/
def glyphLoByte (c : Config.Instance) (k : Nat) : Byte := (c.glyphLo.getD (k / 5) (Vector.replicate 5 0)).getD (k % 5) 0

/-- Byte `k` of the high glyph set: row `k mod 10` of digit `k div 10` (R46). -/
def glyphHiByte (c : Config.Instance) (k : Nat) : Byte := (c.glyphHi.getD (k / 10) (Vector.replicate 10 0)).getD (k % 10) 0

/-- The init image of R46: what `MEM` holds after `init` and after `reset`. It is what an address reads as until
something is written to it. -/
def image (c : Config.Instance) (a : Nat) : Byte :=
  if c.fontLoBase.toNat ≤ a ∧ a < fontHiBase c then glyphLoByte c (a - c.fontLoBase.toNat)
  else if fontHiBase c ≤ a ∧ a < fontEnd c then glyphHiByte c (a - fontHiBase c)
  else if c.progBase.toNat ≤ a then c.rom.getD (a - c.progBase.toNat) 0
  else 0

/-- The regions of an instance stand in the order of R46: low glyphs, high glyphs "immediately following, then program
region". -/
def regionsInOrder (c : Config.Instance) : Bool := decide (fontEnd c ≤ c.progBase.toNat)

/-- The `ROM` fits behind `PROG_BASE` (R49). -/
def romFits (c : Config.Instance) : Bool := decide (c.rom.length ≤ maxRom c)

/-- The instances there are: those that `init` has a meaning for (R46, R49). -/
def instanceOk (c : Config.Instance) : Bool := regionsInOrder c && romFits c

end Sys2Proof.Machine
end

