-- ==== Sys2Proof/Machine/State.lean ====
section
/-! DEFINITION. The whole state of the machine (spec/10_state.md R10): plain data, every item of R10's table, the
configuration of the instance, and one field of the model's own (`rndIx`). Then the reasons a step can stop, and the
state after reset (R30). -/

namespace Sys2Proof.Machine

/-- The resolution mode (R21): Low = 64 × 32, High = 128 × 64. -/
inductive Mode where
  | low
  | high
  deriving DecidableEq, Repr

/-- The code of the fault record (R27, R170). -/
inductive ErrCode where
  /-- 0: no fault. -/
  | none
  /-- 1: the fetched word matches no row of the opcode map (R171). -/
  | unrecognizedOpcode
  /-- 2: `CALL` at `SP` = 15 (R172). -/
  | stackOverflow
  /-- 3: `RET` at `SP` = 0 (R173). -/
  | stackUnderflow
  deriving DecidableEq, Repr

/-- The fault record `ERR` (R27): code, faulting word, its address. -/
structure ErrRecord where
  code : ErrCode
  word : Word
  pc : Addr
  deriving DecidableEq, Repr

/-- Main memory: the cells that differ from the init image, addresses strictly rising (`Memory.wf`, Ops.lean). -/
abbrev Memory := List Host.Cell

/-- The framebuffer as a fixed grid of 64 rows of 128 bits, of which the active part is used (R22; log entry 5): bit `x`
of row `y` is `FB[x, y]`. -/
abbrev Grid := Vector (BitVec 128) 64

structure State where
  /-- `V[0..15]`, the general registers; V15 is VF (R11, R12). -/
  v : Vector Byte 16
  /-- `I`, the index register (R13). -/
  i : Word
  /-- `PC`, the program counter (R14). -/
  pc : Addr
  /-- `SP`, the number of return addresses on the stack (R15). -/
  sp : Nibble
  /-- `STACK[0..15]`, addresses of `CALL` instructions (R16). -/
  stack : Vector Addr 16
  /-- `DT`, the delay timer (R17). -/
  dt : Byte
  /-- `ST`, the sound timer (R18). -/
  st : Byte
  /-- `KEY[0..15]`, the keyboard latch (R19). -/
  key : Vector Bool 16
  /-- `FLAGS[0..7]`, the persistent flags store (R20). -/
  flags : Vector Byte 8
  /-- `MODE` (R21). -/
  mode : Mode
  /-- `FB` (R22). -/
  fb : Grid
  /-- `DIRTY` (R23). -/
  dirty : Bool
  /-- `EXIT` (R25). -/
  exit : Bool
  /-- `WAITING`: false = Running, true = AwaitingKey (R26). -/
  waiting : Bool
  /-- `ERR` (R27). -/
  err : ErrRecord
  /-- `MEM[0..4095]` (R28). -/
  mem : Memory
  /-- The configuration of the instance; no step writes it (R6, R29(b)). -/
  cfg : Config.Instance
  /-- THE MODEL'S OWN: which random byte `Config.rnd` gives the next `RND` (log entry 2). -/
  rndIx : Nat
  deriving DecidableEq, Repr

/-- Why a step stops without a next state. THERE IS NO SUCH REASON on this machine: its three faults have an entry that
the spec describes (R175), so they are next states with `err` written, and no address, alignment or arithmetic
fault exists (R170, R174; log entry 1). -/
inductive Fault where
  deriving DecidableEq, Repr

/-- What has no meaning. -/
inductive Refusal where
  /-- An instruction whose meaning is not written yet: raised by no arm of `exec` now. Safe. -/
  | notModelled (mnemonic : String)
  /-- `init` with a `ROM` of more than `MEM_SIZE` − `PROG_BASE` bytes: raised by the host operation `init` alone, never by a
  step; the spec gives that call no meaning (R49, D37, U8). Safe. -/
  | romTooLong
  /-- `init` of an instance whose program region does not lie behind its glyph sets: raised by the host operation `init`
  alone, never by a step; the spec describes no such memory (R46; log entry 16). Safe. -/
  | regionsOutOfOrder
  deriving DecidableEq, Repr

/-- No fault: code `None`, word and pc 0 (R27). -/
def noErr : ErrRecord := ⟨.none, 0, 0⟩

/-- The state after `init` of the instance `c` (R30, first column) with the power-on contents `flags` of the flags
store (`FLAGS_INIT`, open). Memory lists nothing: it reads as the init image of `c` (R46). -/
def State.init (c : Config.Instance) (flags : Vector Byte 8) : State where
  v := Vector.replicate 16 0
  i := 0
  pc := c.progBase
  sp := 0
  stack := Vector.replicate 16 0
  dt := 0
  st := 0
  key := Vector.replicate 16 false
  flags := flags
  mode := .low
  fb := Vector.replicate 64 0
  dirty := dirtyAfterReset
  exit := false
  waiting := false
  err := noErr
  mem := []
  cfg := c
  rndIx := 0

/-- The machine right after reset: `init` of the default instance (log entries 3 and 8). -/
def State.reset : State := State.init defaultInstance defaultFlags

end Sys2Proof.Machine
end

