-- ==== Sys2Proof/Machine/Ops.lean ====
section
/-! DEFINITION. The named operations over memory, registers, program counter and stack (spec/20_memory.md,
spec/10_state.md), the fetch (spec/30_encoding.md R63), and taking a fault (spec/60_exceptions.md R175). Everything else
of the machine reads and writes through these. -/

namespace Sys2Proof.Machine

/-! ### Memory as data -/

/-- The value listed for an address, if any. -/
def Memory.cellAt : Memory → Nat → Option Byte
  | [], _ => none
  | (b, w) :: m, a => if a = b then some w else Memory.cellAt m a

/-- One byte: the listed value, or what the init image `img` holds there (R51(c)). -/
def Memory.read (img : Nat → Byte) (m : Memory) (a : Nat) : Byte := (Memory.cellAt m a).getD (img a)

/-- List a value for an address, in address order. -/
def Memory.put : Memory → Nat → Byte → Memory
  | [], a, w => [(a, w)]
  | (b, u) :: m, a, w =>
    if a < b then (a, w) :: (b, u) :: m
    else if a = b then (a, w) :: m
    else (b, u) :: Memory.put m a w

/-- List nothing for an address. -/
def Memory.clear (m : Memory) (a : Nat) : Memory := m.filter fun c => c.1 ≠ a

/-- Write one byte: a value equal to the init image removes the entry, so that equal memories are equal lists. -/
def Memory.write (img : Nat → Byte) (m : Memory) (a : Nat) (w : Byte) : Memory :=
  if w = img a then Memory.clear m a else Memory.put m a w

/-- The canonical form: addresses strictly rising, all of the address space (R40), no entry equal to the init image. -/
def Memory.wf (img : Nat → Byte) (m : Memory) : Bool :=
  decide (m.Pairwise fun c d => c.1 < d.1) && m.all fun c => decide (c.1 < memSize) && decide (c.2 ≠ img c.1)

/-! ### Memory accesses -/

/-- `MemRead(a, 1)` (R41): any non-negative address, reduced modulo 4096. -/
def State.readByte (s : State) (a : Nat) : Byte := Memory.read (image s.cfg) s.mem (a % memSize)

/-- `MemWrite(a, 1, w)` (R42): every byte is writable. -/
def State.writeByte (s : State) (a : Nat) (w : Byte) : State :=
  { s with mem := Memory.write (image s.cfg) s.mem (a % memSize) w }

/-! ### Registers -/

/-- VF, the 16th register (R9, R12). -/
def vf : RegIx := 15

/-- `V[r]` (R11). -/
def State.readV (s : State) (r : RegIx) : Byte := s.v[r]

/-- `V[r] <- b` (R11); no register is hardwired. -/
def State.writeV (s : State) (r : RegIx) (b : Byte) : State := { s with v := s.v.set r b }

/-! ### Program counter -/

/-- `PC + k`, modulo 4096 (R14). -/
def pcPlus (pc : Addr) (k : Nat) : Addr := pc + BitVec.ofNat 12 k

/-- `pc <- target`. -/
def State.jumpTo (s : State) (target : Addr) : State := { s with pc := target }

/-- `pc <- PC + 2`: one instruction width. -/
def State.advance (s : State) : State := s.jumpTo (pcPlus s.pc 2)

/-- What a skip is (R89): two instruction widths when the condition holds, one otherwise; the skipped word is not looked
at. -/
def State.skipIf (s : State) (cond : Bool) : State := s.jumpTo (pcPlus s.pc (if cond then 4 else 2))

/-! ### Stack -/

/-- `STACK[SP] <- a`, then `SP <- SP + 1` (R15, R81). -/
def State.push (s : State) (a : Addr) : State :=
  { s with stack := s.stack.set s.sp.toNat a s.sp.isLt, sp := s.sp + 1 }

/-- `SP <- SP - 1` (R82); the popped entry keeps its value (R16). -/
def State.pop (s : State) : State := { s with sp := s.sp - 1 }

/-- `STACK[SP]`, as `RET` reads it after the decrement (R15). -/
def State.stackAt (s : State) : Addr := s.stack[s.sp.toNat]'s.sp.isLt

/-! ### The random input -/

/-- The byte `rnd` of this step (R112): the next free value. -/
def State.rnd (s : State) : Byte := Config.rnd s.rndIx

/-- The next draw gives another free value. -/
def State.rndUsed (s : State) : State := { s with rndIx := s.rndIx + 1 }

/-! ### Faults -/

/-- Taking a fault (R175), the ONE operation of the machine that does so: only `ERR` is written; `PC` still points at the
faulting instruction. The machine is then halted (R176). There is no return from a fault but the host's `init` and
`reset` (R177). -/
def raise (code : ErrCode) (word : Word) (s : State) : Host.Outcome State Fault Refusal :=
  .next { s with err := ⟨code, word, s.pc⟩ }

/-- Is the machine halted: `ERR.code` ≠ `None` (R27)? -/
def State.halted (s : State) : Bool := decide (s.err.code ≠ .none)

/-- A step of the halted machine "changes nothing" (R176). -/
def haltedStep (s : State) : Host.Outcome State Fault Refusal := .next s

/-- A step whose word matches no row (R67, R171). -/
def unrecognized (word : Word) (s : State) : Host.Outcome State Fault Refusal := raise .unrecognizedOpcode word s

/-! ### Fetch -/

/-- The fetched word (R43, R63): `MemRead(PC, 1) ++ MemRead(PC + 1, 1)`. -/
def fetchWord (s : State) : Word := wordOfBytes (s.readByte s.pc.toNat) (s.readByte (s.pc.toNat + 1))

/-- A word placed where the next fetch reads, high byte first, on a machine that fetches (it is not halted): the load
that log entry 8 speaks of. -/
def placeWord (s : State) (w : Word) : State :=
  { (s.writeByte s.pc.toNat (hiByte w)).writeByte (s.pc.toNat + 1) (loByte w) with err := noErr }

end Sys2Proof.Machine
end

