-- ==== Sys2Proof/Machine/Operands.lean ====
section
/-! DEFINITION. Operand forms: immediates (spec/30_encoding.md R62), data addresses (spec/42_index_memory.md R127), glyph
addresses (R122, R123), decimal digits (R124), register lists (R125, R126, R128), key indices
(spec/44_keys_timers.md R160, R162). -/

namespace Sys2Proof.Machine

/-- `zext_16(addr)` (R62, R120). -/
def zext16 (addr : Addr) : Word := addr.setWidth 16

/-- Target of `JP V0, addr`: `(addr + V[0]) mod 4096` (R83). -/
def offsetTarget (addr : Addr) (b : Byte) : Addr := addr + b.setWidth 12

/-- Address of the `k`-th data byte: `(I + k) mod 4096`, the one addressing mode (R41, R127). -/
def State.dataAddr (s : State) (k : Nat) : Nat := (s.i.toNat + k) % memSize

/-- Address of the low glyph of `digit`, the whole 8-bit value, no mask (R122, D16). -/
def glyphLoAddr (c : Config.Instance) (digit : Byte) : Word := BitVec.ofNat 16 (c.fontLoBase.toNat + 5 * digit.toNat)

/-- Address of the high glyph of `digit` (R123, D16). -/
def glyphHiAddr (c : Config.Instance) (digit : Byte) : Word := BitVec.ofNat 16 (fontHiBase c + 10 * digit.toNat)

/-- `v div 100` (R124). -/
def hundreds (b : Byte) : Byte := BitVec.ofNat 8 (b.toNat / 100)

/-- `(v div 10) mod 10` (R124). -/
def tens (b : Byte) : Byte := BitVec.ofNat 8 (b.toNat / 10 % 10)

/-- `v mod 10` (R124). -/
def ones (b : Byte) : Byte := BitVec.ofNat 8 (b.toNat % 10)

/-- The sixteen indices, ascending: registers, or keys. -/
def allIx : List RegIx := List.finRange 16

/-- `V0` to `Vx`, ascending (R125, R126). -/
def regsUpTo (x : RegIx) : List RegIx := allIx.filter fun r => decide (r ≤ x)

/-- The eight slots of the flags store, ascending (R128). -/
def flagSlots : List (Fin 8) := List.finRange 8

/-- The register a slot of the flags store belongs to: `V[k]` for slot `k` (R128, R129). -/
def slotReg (k : Fin 8) : RegIx := k.castLE (by decide)

/-- `V[x][3:0]`: the low 4 bits select a key (R160, D15). -/
def keyIndex (b : Byte) : RegIx := (b.extractLsb' 0 4).toFin

/-- `KEY[k]` (R19). -/
def State.keyDown (s : State) (k : RegIx) : Bool := s.key[k]

/-- "The smallest such k" with `KEY[k]` = 1 (R162, D14). -/
def State.firstKey (s : State) : Option RegIx := allIx.find? s.keyDown

/-- A key index as a register value. -/
def keyByte (k : RegIx) : Byte := BitVec.ofNat 8 k.val

end Sys2Proof.Machine
end

