-- ==== Sys2Proof/Machine/Flags.lean ====
section
/-! DEFINITION. Flag computations (spec/41_alu.md R100, R107 to R111, R113; spec/42_index_memory.md R121): each yields the
bit that VF receives. -/

namespace Sys2Proof.Machine

/-- VF receives exactly 0 or 1 (R100(d)). -/
def flagByte (b : Bool) : Byte := if b then 1 else 0

/-- Carry of `ADD Vx, Vy`: the 9-bit sum exceeds 255 (R107). -/
def addCarry (a b : Byte) : Bool := decide (a.toNat + b.toNat > 255)

/-- No-borrow of `a - b`: `a` ≥ `b`, equality included (R108, R110). -/
def noBorrow (a b : Byte) : Bool := decide (a.toNat ≥ b.toNat)

/-- The bit that a right shift by one moves out (R109). -/
def shrOut (a : Byte) : Bool := a.getLsbD 0

/-- The bit that a left shift by one moves out (R111). -/
def shlOut (a : Byte) : Bool := a.getLsbD 7

/-- Carry of `ADD I, Vx`: the 17-bit sum exceeds 0xFFFF (R121). -/
def addICarry (i : Word) (b : Byte) : Bool := decide (i.toNat + b.toNat > 0xFFFF)

/-- `VF <- flag`. -/
def State.writeFlag (s : State) (flag : Bool) : State := s.writeV vf (flagByte flag)

/-- The result first and VF second, so that the flag is what remains when `x` = 15 (R100(b), (c)). -/
def State.writeResultThenFlag (s : State) (x : RegIx) (result : Byte) (flag : Bool) : State :=
  (s.writeV x result).writeFlag flag

end Sys2Proof.Machine
end

