-- ==== Sys2Proof/Machine/Alu.lean ====
section
/-! DEFINITION. Register, arithmetic, logic and random instructions (spec/41_alu.md R100 to R113). Operands are read from
the state before the instruction (R100(a)). -/

namespace Sys2Proof.Machine

/-- R101. -/
def execLdByte (x : RegIx) (kk : Byte) (s : State) : Host.Outcome State Fault Refusal := .next (s.writeV x kk).advance

/-- R102: VF is not touched (D21). -/
def execAddByte (x : RegIx) (kk : Byte) (s : State) : Host.Outcome State Fault Refusal :=
  .next (s.writeV x (s.readV x + kk)).advance

/-- R103. -/
def execLdReg (x y : RegIx) (s : State) : Host.Outcome State Fault Refusal := .next (s.writeV x (s.readV y)).advance

/-- R104: VF is not touched (D21). -/
def execOrReg (x y : RegIx) (s : State) : Host.Outcome State Fault Refusal :=
  .next (s.writeV x (s.readV x ||| s.readV y)).advance

/-- R105: VF is not touched (D21). -/
def execAndReg (x y : RegIx) (s : State) : Host.Outcome State Fault Refusal :=
  .next (s.writeV x (s.readV x &&& s.readV y)).advance

/-- R106: VF is not touched (D21). -/
def execXorReg (x y : RegIx) (s : State) : Host.Outcome State Fault Refusal :=
  .next (s.writeV x (s.readV x ^^^ s.readV y)).advance

/-- R107. -/
def execAddReg (x y : RegIx) (s : State) : Host.Outcome State Fault Refusal :=
  .next (s.writeResultThenFlag x (s.readV x + s.readV y) (addCarry (s.readV x) (s.readV y))).advance

/-- R108: `Vx − Vy`. -/
def execSub (x y : RegIx) (s : State) : Host.Outcome State Fault Refusal :=
  .next (s.writeResultThenFlag x (s.readV x - s.readV y) (noBorrow (s.readV x) (s.readV y))).advance

/-- R109: on `Vx` directly; `y` is ignored. -/
def execShr (x _y : RegIx) (s : State) : Host.Outcome State Fault Refusal :=
  .next (s.writeResultThenFlag x (s.readV x >>> 1) (shrOut (s.readV x))).advance

/-- R110: `Vy − Vx`. -/
def execSubn (x y : RegIx) (s : State) : Host.Outcome State Fault Refusal :=
  .next (s.writeResultThenFlag x (s.readV y - s.readV x) (noBorrow (s.readV y) (s.readV x))).advance

/-- R111: on `Vx` directly; `y` is ignored. -/
def execShl (x _y : RegIx) (s : State) : Host.Outcome State Fault Refusal :=
  .next (s.writeResultThenFlag x (s.readV x <<< 1) (shlOut (s.readV x))).advance

/-- `RND` with the random byte given: the part of R112 that is no free value. -/
def rndMasked (x : RegIx) (kk rnd : Byte) (s : State) : State := (s.writeV x (rnd &&& kk)).advance

/-- R112: the byte is the step's free input (log entry 2). -/
def execRnd (x : RegIx) (kk : Byte) (s : State) : Host.Outcome State Fault Refusal :=
  .next (rndMasked x kk s.rnd s).rndUsed

end Sys2Proof.Machine
end

