-- ==== Sys2Proof/Machine/Display.lean ====
section
/-! DEFINITION. The framebuffer, its geometry (spec/10_state.md R22, R24), and the display, scroll and draw instructions
(spec/43_display.md R140 to R153). -/

namespace Sys2Proof.Machine

/-! ### Geometry -/

/-- `LW()` (R24). -/
def logicalWidth : Mode → Nat
  | .low => 64
  | .high => 128

/-- `LH()` (R24). -/
def logicalHeight : Mode → Nat
  | .low => 32
  | .high => 64

/-- Is a drawn pixel a 2 × 2 block: `LORES_DOUBLED` and `MODE` = 0 (R148, R149)? -/
def State.doubled (s : State) : Bool := s.cfg.loresDoubled && decide (s.mode = .low)

/-- `W()` (R24): 128 in both modes when `LORES_DOUBLED`. -/
def State.width (s : State) : Nat := if s.cfg.loresDoubled then 128 else logicalWidth s.mode

/-- `H()` (R24). -/
def State.height (s : State) : Nat := if s.cfg.loresDoubled then 64 else logicalHeight s.mode

/-! ### The grid -/

/-- Row `y` of a grid; a row outside the grid is off. -/
def rowAt (g : Grid) (y : Nat) : BitVec 128 := g[y]?.getD 0

/-- `FB[x, y]` of a grid; a cell outside the grid does not exist and reads as off. -/
def pixel (g : Grid) (x y : Nat) : Bool := (rowAt g y).getLsbD x

/-- `FB[x, y]` (R22). -/
def State.pixelAt (s : State) (x y : Nat) : Bool := pixel s.fb x y

/-- All cells 0. -/
def blank : Grid := Vector.replicate 64 0

/-- `FB[x, y] <- FB[x, y] ^ 1`. -/
def toggle (g : Grid) (x y : Nat) : Grid := g.setIfInBounds y (rowAt g y ^^^ (1#128 <<< x))

/-- The columns 0 to `w` − 1 of a row. -/
def rowMask (w : Nat) : BitVec 128 := BitVec.allOnes 128 >>> (128 - w)

/-- A grid of `h` rows; the rows below are off. -/
def gridOfRows (h : Nat) (row : Nat → BitVec 128) : Grid := Vector.ofFn fun y => if y.val < h then row y.val else 0

/-! ### Clear and mode switch -/

/-- The write to the framebuffer with its two companions: `DIRTY <- 1` (R23) and the advance of `PC`. -/
def State.show (s : State) (g : Grid) : State := { s with fb := g, dirty := true }.advance

/-- R140. -/
def execCls (s : State) : Host.Outcome State Fault Refusal := .next (s.show blank)

/-- R141: always clears. -/
def execLow (s : State) : Host.Outcome State Fault Refusal := .next ({ s with mode := .low }.show blank)

/-- R142: always clears. -/
def execHigh (s : State) : Host.Outcome State Fault Refusal := .next ({ s with mode := .high }.show blank)

/-! ### Scrolling -/

/-- Rows move down by `n`; the top `n` rows become 0 and the bottom `n` are discarded (R143). -/
def scrollDown (w h n : Nat) (g : Grid) : Grid :=
  gridOfRows h fun y => if n ≤ y then rowAt g (y - n) &&& rowMask w else 0

/-- Columns move right by `k`: bit `x` takes the place of bit `x` − `k` (R144). -/
def scrollRight (w h k : Nat) (g : Grid) : Grid := gridOfRows h fun y => (rowAt g y <<< k) &&& rowMask w

/-- Columns move left by `k` (R145). -/
def scrollLeft (w h k : Nat) (g : Grid) : Grid := gridOfRows h fun y => (rowAt g y &&& rowMask w) >>> k

/-- R143. -/
def execScd (n : Nibble) (s : State) : Host.Outcome State Fault Refusal :=
  .next (s.show (scrollDown s.width s.height n.toNat s.fb))

/-- R144. -/
def execScr (s : State) : Host.Outcome State Fault Refusal :=
  .next (s.show (scrollRight s.width s.height scrollStep s.fb))

/-- R145. -/
def execScl (s : State) : Host.Outcome State Fault Refusal :=
  .next (s.show (scrollLeft s.width s.height scrollStep s.fb))

/-! ### Drawing -/

/-- The four cells of the block of a logical pixel, top-left first (R148). -/
def toggleBlock (g : Grid) (px py : Nat) : Grid :=
  toggle (toggle (toggle (toggle g px py) (px + 1) py) px (py + 1)) (px + 1) (py + 1)

/-- `Plot(lx, ly)` (R149): the grid with one logical pixel toggled, and the pixel's previous value; a pixel beyond the right
or bottom edge is clipped. -/
def plot (dbl : Bool) (m : Mode) (lx ly : Nat) (g : Grid) : Grid × Bool :=
  if logicalWidth m ≤ lx ∨ logicalHeight m ≤ ly then (g, false)
  else if dbl then (toggleBlock g (2 * lx) (2 * ly), pixel g (2 * lx) (2 * ly))
  else (toggle g lx ly, pixel g lx ly)

/-- The sprite bits that are 1, as (column, row), rows from the top and columns from the left (R146, R150). -/
def spriteCells (rows cols : Nat) (bit : Nat → Nat → Bool) : List (Nat × Nat) :=
  (List.range rows).flatMap fun r => ((List.range cols).filter fun c => bit r c).map fun c => (c, r)

/-- Every set sprite bit plotted at `(x0 + c, y0 + r)`; the collision is the OR of the previous values (R146). -/
def drawCells (dbl : Bool) (m : Mode) (x0 y0 : Nat) (cells : List (Nat × Nat)) (g : Grid) : Grid × Bool :=
  cells.foldl (fun acc c => ((plot dbl m (x0 + c.1) (y0 + c.2) acc.1).1, acc.2 || (plot dbl m (x0 + c.1) (y0 + c.2) acc.1).2))
    (g, false)

/-- Bit of an 8-wide row: the byte at `I + r`, bit 7 leftmost (R150). -/
def State.narrowBit (s : State) (r c : Nat) : Bool := (s.readByte (s.dataAddr r)).getLsbD (7 - c)

/-- Bit of a 16-wide row: the two bytes at `I + 2r`, the left half at the lower address (R147, R150). -/
def State.wideBit (s : State) (r c : Nat) : Bool :=
  (wordOfBytes (s.readByte (s.dataAddr (2 * r))) (s.readByte (s.dataAddr (2 * r + 1)))).getLsbD (15 - c)

/-- The starting column: `V[x] mod LW()` (R146). -/
def State.drawX (s : State) (x : RegIx) : Nat := (s.readV x).toNat % logicalWidth s.mode

/-- The starting row: `V[y] mod LH()` (R146). -/
def State.drawY (s : State) (y : RegIx) : Nat := (s.readV y).toNat % logicalHeight s.mode

/-- A sprite drawn at (`Vx`, `Vy`), coordinates read before VF is written, then VF <- collision (R146, R100). -/
def State.draw (s : State) (x y : RegIx) (cells : List (Nat × Nat)) : State :=
  let drawn := drawCells s.doubled s.mode (s.drawX x) (s.drawY y) cells s.fb
  (s.writeFlag drawn.2).show drawn.1

/-- R146. -/
def execDrw (x y : RegIx) (n : Nibble) (s : State) : Host.Outcome State Fault Refusal :=
  .next (s.draw x y (spriteCells n.toNat 8 s.narrowBit))

/-- R147: 16 × 16 in High mode, a draw of zero rows in Low mode (D12). -/
def execDrwWide (x y : RegIx) (s : State) : Host.Outcome State Fault Refusal :=
  .next (s.draw x y (if s.mode = .high then spriteCells 16 16 s.wideBit else []))

end Sys2Proof.Machine
end

