-- ==== Sys2Proof/Machine/Flow.lean ====
section
/-! DEFINITION. Control flow instructions (spec/40_flow.md R80 to R89). -/

namespace Sys2Proof.Machine

/-- R80. -/
def execJp (addr : Addr) (s : State) : Host.Outcome State Fault Refusal := .next (s.jumpTo addr)

/-- R81: the pushed value is the address of the `CALL` itself. At `SP` = 15 it takes `StackOverflow` (R172); the faulting
word is the instruction's own. -/
def execCall (addr : Addr) (s : State) : Host.Outcome State Fault Refusal :=
  if s.sp = 15 then raise .stackOverflow (encode (.call addr)) s
  else .next ((s.push s.pc).jumpTo addr)

/-- R82: resumes at the instruction after the `CALL`. At `SP` = 0 it takes `StackUnderflow` (R173). -/
def execRet (s : State) : Host.Outcome State Fault Refusal :=
  if s.sp = 0 then raise .stackUnderflow (encode .ret) s
  else .next (s.pop.jumpTo (pcPlus s.pop.stackAt 2))

/-- R83: the offset register is V0 (D22). -/
def execJpV0 (addr : Addr) (s : State) : Host.Outcome State Fault Refusal :=
  .next (s.jumpTo (offsetTarget addr (s.readV 0)))

/-- R84. -/
def execSeByte (x : RegIx) (kk : Byte) (s : State) : Host.Outcome State Fault Refusal :=
  .next (s.skipIf (decide (s.readV x = kk)))

/-- R85. -/
def execSneByte (x : RegIx) (kk : Byte) (s : State) : Host.Outcome State Fault Refusal :=
  .next (s.skipIf (decide (s.readV x ≠ kk)))

/-- R86. -/
def execSeReg (x y : RegIx) (s : State) : Host.Outcome State Fault Refusal :=
  .next (s.skipIf (decide (s.readV x = s.readV y)))

/-- R87. -/
def execSneReg (x y : RegIx) (s : State) : Host.Outcome State Fault Refusal :=
  .next (s.skipIf (decide (s.readV x ≠ s.readV y)))

/-- R88: sets the flag and goes on; stopping is the host's duty (D23). -/
def execExit (s : State) : Host.Outcome State Fault Refusal := .next { s with exit := true }.advance

end Sys2Proof.Machine
end

