-- ==== Sys2Proof/Machine/Index.lean ====
section
/-! DEFINITION. Index register, memory and flags-store instructions (spec/42_index_memory.md R120 to R129). None but the
first four writes `I` (R127, D17). -/

namespace Sys2Proof.Machine

/-- `I <- w`. -/
def State.writeI (s : State) (w : Word) : State := { s with i := w }

/-- R120. -/
def execLdI (addr : Addr) (s : State) : Host.Outcome State Fault Refusal := .next (s.writeI (zext16 addr)).advance

/-- R121: the carry goes to VF when the instance's `ADDI_CARRY` is true; otherwise VF is untouched (D19). -/
def execAddI (x : RegIx) (s : State) : Host.Outcome State Fault Refusal :=
  let t := s.writeI (s.i + (s.readV x).setWidth 16)
  .next (if s.cfg.addiCarry then t.writeFlag (addICarry s.i (s.readV x)) else t).advance

/-- R122. -/
def execLdF (x : RegIx) (s : State) : Host.Outcome State Fault Refusal :=
  .next (s.writeI (glyphLoAddr s.cfg (s.readV x))).advance

/-- R123. -/
def execLdHf (x : RegIx) (s : State) : Host.Outcome State Fault Refusal :=
  .next (s.writeI (glyphHiAddr s.cfg (s.readV x))).advance

/-- The bytes of a list stored at `I`, `I` + 1, …, in ascending order (R45). -/
def State.storeAtI (s : State) (bytes : List Byte) : State :=
  bytes.zipIdx.foldl (fun t p => t.writeByte (s.dataAddr p.2) p.1) s

/-- R124: hundreds, tens, ones, one digit a byte. -/
def execLdB (x : RegIx) (s : State) : Host.Outcome State Fault Refusal :=
  .next (s.storeAtI [hundreds (s.readV x), tens (s.readV x), ones (s.readV x)]).advance

/-- R125: `V0` to `Vx` to memory. -/
def execStoreRegs (x : RegIx) (s : State) : Host.Outcome State Fault Refusal :=
  .next (s.storeAtI ((regsUpTo x).map s.readV)).advance

/-- R126: `V0` to `Vx` from memory. -/
def execLoadRegs (x : RegIx) (s : State) : Host.Outcome State Fault Refusal :=
  .next ((regsUpTo x).foldl (fun t r => t.writeV r (s.readByte (s.dataAddr r.val))) s).advance

/-- `FLAGS[k] <- V[k]` for the eight slots (R128). -/
def State.saveToFlags (s : State) : State :=
  { s with flags := flagSlots.foldl (fun f (k : Fin 8) => f.set k (s.readV (slotReg k))) s.flags }

/-- `V[k] <- FLAGS[k]` for the eight slots (R129). -/
def State.loadFromFlags (s : State) : State := flagSlots.foldl (fun t k => t.writeV (slotReg k) s.flags[k]) s

/-- R128: always `V0` to `V7`; the field `x` is ignored (D18). -/
def execSaveFlags (_x : RegIx) (s : State) : Host.Outcome State Fault Refusal := .next s.saveToFlags.advance

/-- R129: always `V0` to `V7`; the field `x` is ignored (D18). -/
def execLoadFlags (_x : RegIx) (s : State) : Host.Outcome State Fault Refusal := .next s.loadFromFlags.advance

end Sys2Proof.Machine
end

