-- ==== Sys2Proof/Machine/KeysTimers.lean ====
section
/-! DEFINITION. Keyboard and timer instructions (spec/44_keys_timers.md R160 to R166). -/

namespace Sys2Proof.Machine

/-- R160. -/
def execSkp (x : RegIx) (s : State) : Host.Outcome State Fault Refusal :=
  .next (s.skipIf (s.keyDown (keyIndex (s.readV x))))

/-- R161. -/
def execSknp (x : RegIx) (s : State) : Host.Outcome State Fault Refusal :=
  .next (s.skipIf (!s.keyDown (keyIndex (s.readV x))))

/-- R162: the same on the first encounter and on every re-poll; without a key `PC` does not move. -/
def execLdVxK (x : RegIx) (s : State) : Host.Outcome State Fault Refusal :=
  match s.firstKey with
  | some k => .next { s.writeV x (keyByte k) with waiting := false }.advance
  | none => .next { s with waiting := true }

/-- R163. -/
def execLdVxDt (x : RegIx) (s : State) : Host.Outcome State Fault Refusal := .next (s.writeV x s.dt).advance

/-- R164. -/
def execLdDtVx (x : RegIx) (s : State) : Host.Outcome State Fault Refusal := .next { s with dt := s.readV x }.advance

/-- R165. -/
def execLdStVx (x : RegIx) (s : State) : Host.Outcome State Fault Refusal := .next { s with st := s.readV x }.advance

end Sys2Proof.Machine
end

