-- ==== Sys2Proof/Machine/Step.lean ====
section
/-! DEFINITION. The step (spec/30_encoding.md R64) and the placing of an instruction where it fetches. -/

namespace Sys2Proof.Machine

/-- R64: a halted machine changes nothing; otherwise the word at `PC` is fetched and decoded, and the instruction executed
or `UnrecognizedOpcode` taken. AwaitingKey is no special case (C6). -/
def step (s : State) : Host.Outcome State Fault Refusal :=
  if s.halted then haltedStep s
  else
    match decodeWord (fetchWord s) with
    | some i => exec i s
    | none => unrecognized (fetchWord s) s

/-- The instruction of an opcode-table word stored at `PC`, high byte first, on a machine that is not halted (log
entry 8). -/
def State.withFetchWord (s : State) (nbits w : Nat) : State := placeWord s (tableWord nbits w)

end Sys2Proof.Machine
end

