-- ==== Sys2Proof/Machine/HostOps.lean ====
section
/-! DEFINITION. The host's side (spec/70_reset_and_hazards.md R190 to R200): the operations it may perform between two
steps, and the outputs it may read (spec/10_state.md R31). -/

namespace Sys2Proof.Machine

/-- One period of the external ticker on one timer: it stops at 0 (R195). -/
def tickTimer (t : Byte) : Byte := if t ≠ 0 then t - 1 else t

/-- `tick` (R195). -/
def State.tick (s : State) : State := { s with dt := tickTimer s.dt, st := tickTimer s.st }

/-- `set_keys` (R196): all 16 keys at once. -/
def State.setKeys (s : State) (k : Vector Bool 16) : State := { s with key := k }

/-- `clear_dirty` (R197). -/
def State.clearDirty (s : State) : State := { s with dirty := false }

/-- `request_exit` (R198). -/
def State.requestExit (s : State) : State := { s with exit := true }

/-- `reset` (R191): exactly `init` with the retained `ROM`, except that `FLAGS` is kept. The supply of free random bytes
goes on (log entry 2). -/
def State.hostReset (s : State) : State := { State.init s.cfg s.flags with rndIx := s.rndIx }

/-- `init` (R190) of an instance, in place of the machine `s` there was: every item takes its value of R30, whatever `s`
held. An instance whose regions are out of order (R46) or whose `ROM` does not fit (R49) has no meaning. -/
def State.hostInit (s : State) (c : Config.Instance) (flagsInit : Vector Byte 8) : Host.Outcome State Fault Refusal :=
  if regionsInOrder c then
    if romFits c then .next { State.init c flagsInit with rndIx := s.rndIx } else .refused .romTooLong
  else .refused .regionsOutOfOrder

/-- The host operations (R190, R191, R195 to R198). -/
inductive HostOp where
  | init (c : Config.Instance) (flagsInit : Vector Byte 8)
  | reset
  | tick
  | setKeys (k : Vector Bool 16)
  | clearDirty
  | requestExit
  deriving DecidableEq, Repr

/-- The effect of one host operation; it acts in any state, halted and AwaitingKey included (R176, R191). -/
def hostAct (op : HostOp) (s : State) : Host.Outcome State Fault Refusal :=
  match op with
  | .init c flagsInit => s.hostInit c flagsInit
  | .reset => .next s.hostReset
  | .tick => .next s.tick
  | .setKeys k => .next (s.setKeys k)
  | .clearDirty => .next s.clearDirty
  | .requestExit => .next s.requestExit

/-- `SOUND_ON`: `ST` ≠ 0 (R18, R31). -/
def State.soundOn (s : State) : Bool := decide (s.st ≠ 0)

/-- What `step` returns (R192): `Ok`, or the fault. -/
inductive StepResult where
  | ok
  | fatal (err : ErrRecord)
  deriving DecidableEq, Repr

/-- The output `result` (R31, R193): `Ok` when `ERR.code` = 0, else the fault in `ERR`. -/
def State.result (s : State) : StepResult := if s.halted then .fatal s.err else .ok

/-- The number of a fault code (R27, R170). -/
def ErrCode.number : ErrCode → BitVec 2
  | .none => 0
  | .unrecognizedOpcode => 1
  | .stackOverflow => 2
  | .stackUnderflow => 3

end Sys2Proof.Machine
end

