-- ==== Sys2Proof/Machine/Runs.lean ====
section
/-! DEFINITION. A run and its end (spec/70_reset_and_hazards.md R200, R203): the atomic operations of an execution, the plain
run of a list of them, and the run that stops at the first moment it has ended. -/

namespace Sys2Proof.Machine

/-- One atomic operation of an execution (R200): a step of the executor, or one operation of the host. -/
inductive Event where
  | step
  | host (op : HostOp)
  deriving DecidableEq, Repr

/-- The effect of one atomic operation. -/
def act (e : Event) (s : State) : Host.Outcome State Fault Refusal :=
  match e with
  | .step => step s
  | .host op => hostAct op s

/-- The two ways a run ends (R203). -/
inductive RunEnd where
  | normal
  | abnormal
  deriving DecidableEq, Repr

/-- Normal end of a run (R203(a)): `EXIT` = 1 and no fault. -/
def State.endedNormally (s : State) : Bool := s.exit && !s.halted

/-- Abnormal end of a run (R203(b)): the machine is halted by a fault. -/
def State.endedAbnormally (s : State) : Bool := s.halted

/-- Has the run ended in this state, and how (R203)? A jump to its own address is no end. -/
def State.runEnd (s : State) : Option RunEnd :=
  if s.endedAbnormally then some .abnormal else if s.endedNormally then some .normal else none

/-- The operations of a list, one after the other, past every end of a run: "the core does not enforce the stop". -/
def runEvents : List Event → State → Host.Outcome State Fault Refusal
  | [], s => .next s
  | e :: es, s =>
    match act e s with
    | .next t => runEvents es t
    | .fault r => .fault r
    | .refused r => .refused r

/-- The run of R203: it stops at the first state in which it has ended, "the state at the first moment `EXIT` is 1" or the
faulted state, and leaves the operations that remain undone. -/
def runToEnd : List Event → State → Host.Outcome State Fault Refusal
  | [], s => .next s
  | e :: es, s =>
    if s.runEnd.isSome then .next s
    else
      match act e s with
      | .next t => runToEnd es t
      | .fault r => .fault r
      | .refused r => .refused r

end Sys2Proof.Machine
end

