-- ==== Sys2Proof/Safety.lean ====
section
/-! DEFINITION. The terms statements are made in: what a frame is, the access matrix of spec/10_state.md R32, the
invariant of the machine, and the states an execution reaches (spec/70_reset_and_hazards.md R200). -/

namespace Sys2Proof.Machine

/-! ### Frames -/

/-- The items of state of R10's table, with the two that the model adds (`cfg`, `rnd`). -/
inductive Item where
  | v | i | pc | sp | stack | dt | st | key | flags | mode | fb | dirty | exit | waiting | err | mem | cfg | rnd
  deriving DecidableEq, Repr

/-- An item has the same contents in two states, as a reader of the machine sees it: every register, every byte of
memory, every cell of the framebuffer. -/
def Item.same (it : Item) (s t : State) : Prop :=
  match it with
  | .v => ∀ r, t.readV r = s.readV r
  | .i => t.i = s.i
  | .pc => t.pc = s.pc
  | .sp => t.sp = s.sp
  | .stack => t.stack = s.stack
  | .dt => t.dt = s.dt
  | .st => t.st = s.st
  | .key => t.key = s.key
  | .flags => t.flags = s.flags
  | .mode => t.mode = s.mode
  | .fb => ∀ x y, t.pixelAt x y = s.pixelAt x y
  | .dirty => t.dirty = s.dirty
  | .exit => t.exit = s.exit
  | .waiting => t.waiting = s.waiting
  | .err => t.err = s.err
  | .mem => ∀ a, t.readByte a = s.readByte a
  | .cfg => t.cfg = s.cfg
  | .rnd => t.rndIx = s.rndIx

/-- Every item but the listed ones is unchanged from `s` to `t`. -/
def Unchanged (besides : List Item) (s t : State) : Prop := ∀ it, it ∉ besides → it.same s t

/-! ### The access matrix -/

/-- What an instruction may write besides `PC` (R32, column "writes"), with the fault record of the two instructions that
can fault (R172, R173) and the model's draw counter of `RND`. -/
def writes : Instr → List Item
  | .scd _ | .scr | .scl | .cls => [.fb, .dirty]
  | .low | .high => [.mode, .fb, .dirty]
  | .exit => [.exit]
  | .ret => [.sp, .err]
  | .jp _ | .jpV0 _ => []
  | .call _ => [.stack, .sp, .err]
  | .seByte _ _ | .sneByte _ _ | .seReg _ _ | .sneReg _ _ | .skp _ | .sknp _ => []
  | .ldByte _ _ | .addByte _ _ | .ldReg _ _ | .orReg _ _ | .andReg _ _ | .xorReg _ _ => [.v]
  | .addReg _ _ | .sub _ _ | .subn _ _ | .shr _ _ | .shl _ _ => [.v]
  | .ldI _ | .ldF _ | .ldHf _ => [.i]
  | .addI _ => [.i, .v]
  | .rnd _ _ => [.v, .rnd]
  | .drw _ _ _ | .drwWide _ _ => [.fb, .v, .dirty]
  | .ldVxDt _ => [.v]
  | .ldVxK _ => [.v, .waiting]
  | .ldDtVx _ => [.dt]
  | .ldStVx _ => [.st]
  | .ldB _ | .storeRegs _ => [.mem]
  | .loadRegs _ | .loadFlags _ => [.v]
  | .saveFlags _ => [.flags]

/-- Which general registers an instruction may write (R32: `V[x]`, VF as a flag, `V[0..x]`, `V[0..7]`). -/
def writesReg (i : Instr) (r : RegIx) : Bool :=
  match i with
  | .ldByte x _ | .addByte x _ | .ldReg x _ | .orReg x _ | .andReg x _ | .xorReg x _ => r == x
  | .rnd x _ | .ldVxDt x | .ldVxK x => r == x
  | .addReg x _ | .sub x _ | .subn x _ | .shr x _ | .shl x _ => r == x || r == vf
  | .addI _ | .drw _ _ _ | .drwWide _ _ => r == vf
  | .loadRegs x => decide (r ≤ x)
  | .loadFlags _ => decide (r.val < 8)
  | _ => false

/-! ### Drawing -/

/-- A set bit of a sprite, given by its bits `bit row column`, is plotted at the logical pixel (`lx`, `ly`) by a draw at
(`Vx`, `Vy`): only the starting coordinate is wrapped, and pixels beyond the edge are clipped (R146, R149, the set T of
R151). -/
def State.Plots (s : State) (x y : RegIx) (rows cols : Nat) (bit : Nat → Nat → Bool) (lx ly : Nat) : Prop :=
  lx < logicalWidth s.mode ∧ ly < logicalHeight s.mode ∧
    ∃ r c, r < rows ∧ c < cols ∧ bit r c = true ∧
      lx = (s.readV x).toNat % logicalWidth s.mode + c ∧ ly = (s.readV y).toNat % logicalHeight s.mode + r

/-! ### The invariant -/

/-- Cells outside the active resolution do not exist (R22): they are off. -/
def State.Confined (s : State) : Prop := ∀ x y, s.width ≤ x ∨ s.height ≤ y → s.pixelAt x y = false

/-- The machine awaits a key only at a `LD Vx, K`, and not when halted (R26). -/
def State.AwaitsAtKeyWait (s : State) : Prop :=
  s.waiting = true → s.err = noErr ∧ ∃ x, decodeWord (fetchWord s) = some (.ldVxK x)

/-- The fault record tells of the instruction at `PC` (R27, R170, R175): its word, its address, and why it faulted. -/
def State.FaultRecordTrue (s : State) : Prop :=
  match s.err.code with
  | .none => s.err = noErr
  | .unrecognizedOpcode => s.err.word = fetchWord s ∧ s.err.pc = s.pc ∧ decodeWord s.err.word = none
  | .stackOverflow =>
    s.err.word = fetchWord s ∧ s.err.pc = s.pc ∧ (∃ addr, decodeWord s.err.word = some (.call addr)) ∧ s.sp = 15
  | .stackUnderflow => s.err.word = fetchWord s ∧ s.err.pc = s.pc ∧ s.err.word = 0x00EE ∧ s.sp = 0

/-- What every state of an execution meets. -/
structure State.Inv (s : State) : Prop where
  /-- Memory is in its canonical form (Ops.lean). -/
  memory : Memory.wf (image s.cfg) s.mem = true
  /-- The regions of memory are in order and the `ROM` fits (R46, R49). -/
  regions : instanceOk s.cfg = true
  /-- R22. -/
  confined : s.Confined
  /-- "`STACK[15]` is never written" (R15): it keeps its value 0 of R30. -/
  lastSlot : s.stack[15] = 0
  /-- R26. -/
  waits : s.AwaitsAtKeyWait
  /-- R27, R175. -/
  fault : s.FaultRecordTrue

/-! ### Executions -/

/-- The states of executions (R199, R200): `init` of any instance with any power-on flags store, then any sequence of steps
and host operations. -/
inductive Reachable : State → Prop where
  | init (c : Config.Instance) (flagsInit : Vector Byte 8) : instanceOk c = true → Reachable (State.init c flagsInit)
  | act {s t : State} (e : Event) : Reachable s → act e s = .next t → Reachable t

/-- The states of one instance's executions: `init` of the instance `c`, then steps and host operations other than a new
`init` (R190, R191: the `ROM` is retained). -/
inductive RunsFrom (c : Config.Instance) : State → Prop where
  | init (flagsInit : Vector Byte 8) : instanceOk c = true → RunsFrom c (State.init c flagsInit)
  | step {s t : State} : RunsFrom c s → step s = .next t → RunsFrom c t
  | host {s t : State} (op : HostOp) : RunsFrom c s → (∀ d f, op ≠ .init d f) → hostAct op s = .next t → RunsFrom c t

end Sys2Proof.Machine
end

