-- ==== Sys2Proof/Certificates/Slice0/Obligations.lean ====
section
/-! DEFINITION. The statements for the provers, in the order of spec/: encoding, step and faults, memory, invariants, reset,
then the instruction families, the host, the whole machine, the parameters and the end of a run. `Unchanged l s t` says that
every item of state but those of `l` is the same in `t` as in `s`: every register, every byte of memory, every cell of the framebuffer. -/

open Sys2Proof Sys2Proof.Machine

/-! ### Encoding (spec/30_encoding.md) -/

/-- Every well-formed instruction, with every value of every operand, is what its own word decodes to (R60, R61, R66). -/
def Obligations.DecodeOfEncodeIsIdentity : Prop :=
  ∀ i : Instr, i.wf = true → decodeWord (encode i) = some i

/-- A recognized word is the encoding of the well-formed instruction it decodes to: no bit of it is dropped, and no two
words share an instruction (the ignored fields of R68 are kept; log entry 9). -/
def Obligations.EncodeOfDecodeIsIdentity : Prop :=
  ∀ (w : Word) (i : Instr), decodeWord w = some i → encode i = w ∧ i.wf = true

/-- The unrecognized words are exactly those of R67's table, class by class (the spec's decision D20). -/
def Obligations.UnrecognizedWordsExactly : Prop :=
  ∀ w : Word, decodeWord w = none ↔
    (w.toNat / 4096 = 0x0 ∧ ¬(0x00C0 ≤ w.toNat ∧ w.toNat ≤ 0x00CF) ∧
        w.toNat ∉ [0x00E0, 0x00EE, 0x00FB, 0x00FC, 0x00FD, 0x00FE, 0x00FF]) ∨
    (w.toNat / 4096 = 0x5 ∧ w.toNat % 16 ≠ 0) ∨
    (w.toNat / 4096 = 0x8 ∧ w.toNat % 16 ∈ [0x8, 0x9, 0xA, 0xB, 0xC, 0xD, 0xF]) ∨
    (w.toNat / 4096 = 0x9 ∧ w.toNat % 16 ≠ 0) ∨
    (w.toNat / 4096 = 0xE ∧ w.toNat % 256 ∉ [0x9E, 0xA1]) ∨
    (w.toNat / 4096 = 0xF ∧
        w.toNat % 256 ∉ [0x07, 0x0A, 0x15, 0x18, 0x1E, 0x29, 0x30, 0x33, 0x55, 0x65, 0x75, 0x85])

/-- One word of each family, written out from the patterns of R66, decodes to the instruction it stands for. -/
def Obligations.SampleWordsDecode : Prop :=
  decodeTableWord 16 0x00C3 = some (.scd 3) ∧ decodeTableWord 16 0x2ABC = some (.call 0xABC) ∧
  decodeTableWord 16 0x6A05 = some (.ldByte 10 0x05) ∧ decodeTableWord 16 0x8124 = some (.addReg 1 2) ∧
  decodeTableWord 16 0xD12F = some (.drw 1 2 15) ∧ decodeTableWord 16 0xD120 = some (.drwWide 1 2) ∧
  decodeTableWord 16 0xE39E = some (.skp 3) ∧ decodeTableWord 16 0xF255 = some (.storeRegs 2) ∧
  decodeTableWord 16 0x5121 = none

/-! ### Step and faults (spec/30_encoding.md R64, spec/60_exceptions.md) -/

/-- When the two bytes at `PC`, the second address taken modulo 4096, decode to an instruction, a step of a machine that is
not halted is exactly that instruction's effect; it adds nothing of its own (R64). -/
def Obligations.StepRunsDecodedInstruction : Prop :=
  ∀ (s : State) (i : Instr), s.err.code = .none →
    decodeWord (s.readByte s.pc.toNat ++ s.readByte ((s.pc.toNat + 1) % 4096)) = some i → step s = exec i s

/-- A word that matches no row is a fault: only `ERR` is written, with the word and its address (R171, R175; the record
is the spec's decision D27; that the faulted state is a next state is the model's, log entry 1). -/
def Obligations.UnrecognizedWordFaults : Prop :=
  ∀ (s : State) (w : Word), s.err.code = .none →
    w = s.readByte s.pc.toNat ++ s.readByte ((s.pc.toNat + 1) % 4096) → decodeWord w = none →
    ∃ t, step s = .next t ∧ t.err = ⟨.unrecognizedOpcode, w, s.pc⟩ ∧ t.halted = true ∧ Unchanged [.err] s t

/-- A step of the halted machine changes nothing and reports the same fault (R176; the spec's decision D27). -/
def Obligations.HaltedStepChangesNothing : Prop :=
  ∀ s : State, s.err.code ≠ .none → step s = .next s ∧ s.result = .fatal s.err

/-- Nothing stops the model: every instruction and every step answers a next state, from every state, since the machine has
no address, alignment, arithmetic or privilege fault and its three faults have an entry (R170, R174, R175; log entry 1). -/
def Obligations.EveryStepAnswersNextState : Prop :=
  (∀ (i : Instr) (s : State), ∃ t, exec i s = .next t) ∧ ∀ s : State, ∃ t, step s = .next t

/-- A word placed where the machine fetches is what the next step runs, wherever `PC` points (the model's own convention,
log entry 8). -/
def Obligations.PlacedWordIsRunNext : Prop :=
  ∀ (s : State) (w : Word) (i : Instr), decodeWord w = some i →
    step (s.withFetchWord 16 w.toNat) = exec i (s.withFetchWord 16 w.toNat) ∧
    Unchanged [.mem, .err] s (s.withFetchWord 16 w.toNat) ∧
    ∀ a, a % 4096 ≠ s.pc.toNat → a % 4096 ≠ (s.pc.toNat + 1) % 4096 → (s.withFetchWord 16 w.toNat).readByte a = s.readByte a

/-! ### Memory (spec/20_memory.md) -/

/-- A read gives the value last written to that address modulo 4096, and a write leaves every other byte and every other item
alone (R41, R42, R51(c); the reduction is the spec's decision D6). -/
def Obligations.ReadAfterWrite : Prop :=
  ∀ (s : State) (a b : Nat) (w : Byte),
    (s.writeByte a w).readByte b = (if b % 4096 = a % 4096 then w else s.readByte b) ∧
    Unchanged [.mem] s (s.writeByte a w)

/-- A byte that `LD [I], Vx` (any `x`) or `LD B, Vx` stores where the program goes on is what the very next fetch reads there, in
either half of the word; the half that is not stored to is fetched as it was (R54; the spec's decision D32). -/
def Obligations.StoredBytesAreFetchedNext : Prop :=
  ∀ (x : RegIx) (s : State),
    (∃ t, exec (.storeRegs x) s = .next t ∧ t.pc = s.pc + 2#12 ∧
      (∀ r : RegIx, r ≤ x → s.dataAddr r.val = t.pc.toNat → hiByte (fetchWord t) = s.readV r) ∧
      (∀ r : RegIx, r ≤ x → s.dataAddr r.val = (t.pc.toNat + 1) % 4096 → loByte (fetchWord t) = s.readV r) ∧
      ((∀ k, k ≤ x.val → s.dataAddr k ≠ t.pc.toNat) → hiByte (fetchWord t) = s.readByte t.pc.toNat) ∧
      ((∀ k, k ≤ x.val → s.dataAddr k ≠ (t.pc.toNat + 1) % 4096) → loByte (fetchWord t) = s.readByte (t.pc.toNat + 1))) ∧
    (∃ t, exec (.ldB x) s = .next t ∧ t.pc = s.pc + 2#12 ∧
      (∀ k, k < 3 → s.dataAddr k = t.pc.toNat →
        (hiByte (fetchWord t)).toNat = (s.readV x).toNat / 10 ^ (2 - k) % 10) ∧
      (∀ k, k < 3 → s.dataAddr k = (t.pc.toNat + 1) % 4096 →
        (loByte (fetchWord t)).toNat = (s.readV x).toNat / 10 ^ (2 - k) % 10) ∧
      ((∀ k, k < 3 → s.dataAddr k ≠ t.pc.toNat) → hiByte (fetchWord t) = s.readByte t.pc.toNat) ∧
      ((∀ k, k < 3 → s.dataAddr k ≠ (t.pc.toNat + 1) % 4096) → loByte (fetchWord t) = s.readByte (t.pc.toNat + 1)))

/-! ### Invariants -/

/-- Every step keeps the invariant: canonical memory, nothing drawn outside the active resolution, `STACK[15]` never
written, AwaitingKey only at a key wait, and a fault record that tells of the instruction at `PC`. -/
def Obligations.StepKeepsInvariant : Prop :=
  ∀ s t : State, s.Inv → step s = .next t → t.Inv

/-- Every host operation keeps the invariant. -/
def Obligations.HostOperationsKeepInvariant : Prop :=
  ∀ (op : HostOp) (s t : State), s.Inv → hostAct op s = .next t → t.Inv

/-- The state after reset meets the invariant. -/
def Obligations.ResetMeetsInvariant : Prop := State.reset.Inv

/-- Every state that any interleaving of steps and host operations reaches from `init` meets the invariant, whatever the
instance, the power-on flags store and the random bytes (R200, R204). -/
def Obligations.ReachableStatesMeetInvariant : Prop := ∀ s : State, Reachable s → s.Inv

/-! ### Reset (spec/10_state.md R30, spec/20_memory.md R46, spec/70_reset_and_hazards.md) -/

/-- `init` (R30, R190; the values are the spec's decision D24), in place of whatever machine there was: for every instance and every
power-on flags store, the registers take their values, `PC` the instance's `PROG_BASE`, and nothing but the supply of random bytes is
kept (log entry 2); a `ROM` longer than the memory behind `PROG_BASE` is refused (R49; the spec's decision D37), and so is an instance
whose program region does not lie behind its glyph sets (the model's choice, log entry 16). -/
def Obligations.RegistersAfterInit : Prop :=
  ∀ (c : Config.Instance) (flagsInit : Vector Byte 8) (s : State),
    (c.progBase.toNat < c.fontLoBase.toNat + 180 → hostAct (.init c flagsInit) s = .refused .regionsOutOfOrder) ∧
    (c.fontLoBase.toNat + 180 ≤ c.progBase.toNat →
      (4096 - c.progBase.toNat < c.rom.length → hostAct (.init c flagsInit) s = .refused .romTooLong) ∧
      (c.rom.length ≤ 4096 - c.progBase.toNat → ∃ t, hostAct (.init c flagsInit) s = .next t ∧ (∀ r, t.readV r = 0) ∧ t.i = 0 ∧
        t.pc = c.progBase ∧ t.sp = 0 ∧ (∀ k : Fin 16, t.stack[k] = 0) ∧ t.dt = 0 ∧ t.st = 0 ∧
        (∀ k : Fin 16, t.key[k] = false) ∧ t.flags = flagsInit ∧ t.mode = .low ∧ (∀ x y, t.pixelAt x y = false) ∧
        t.dirty = true ∧ t.exit = false ∧ t.waiting = false ∧ t.err = ⟨.none, 0, 0⟩ ∧
        t.width = (if c.loresDoubled then 128 else 64) ∧ t.height = (if c.loresDoubled then 64 else 32) ∧ t.cfg = c ∧
        t.rndIx = s.rndIx ∧ Unchanged [.rnd] (State.init c flagsInit) t))

/-- What memory reads as in the state that `init` answers, whatever the machine held before (R46, R190; the zero fill is the spec's
decision D4): low glyphs at the instance's `FONT_LO_BASE`, high glyphs immediately following, the `ROM` at its `PROG_BASE`, zeros
everywhere else. -/
def Obligations.MemoryAfterInit : Prop :=
  ∀ (c : Config.Instance) (flagsInit : Vector Byte 8) (s : State),
    c.fontLoBase.toNat + 180 ≤ c.progBase.toNat → c.rom.length ≤ 4096 - c.progBase.toNat →
    ∃ t, hostAct (.init c flagsInit) s = .next t ∧
      (∀ (d : Fin 16) (k : Fin 5), t.readByte (c.fontLoBase.toNat + (5 * d.val + k.val)) = c.glyphLo[d][k]) ∧
      (∀ (d : Fin 10) (k : Fin 10), t.readByte (c.fontLoBase.toNat + 80 + (10 * d.val + k.val)) = c.glyphHi[d][k]) ∧
      (∀ (j : Nat) (h : j < c.rom.length), t.readByte (c.progBase.toNat + j) = c.rom[j]) ∧
      (∀ a, a < c.fontLoBase.toNat → t.readByte a = 0) ∧
      (∀ a, c.fontLoBase.toNat + 180 ≤ a → a < c.progBase.toNat → t.readByte a = 0) ∧
      (∀ a, c.progBase.toNat + c.rom.length ≤ a → a < 4096 → t.readByte a = 0)

/-- `reset`, at any point of any execution of an instance, halted and AwaitingKey included, gives the state after `init` of
that instance again, the program reloaded, but keeps the flags store (R191; the reload is the spec's decision D26). -/
def Obligations.ResetRestartsButKeepsFlags : Prop :=
  ∀ (c : Config.Instance) (s : State) (flagsInit : Vector Byte 8), RunsFrom c s →
    ∃ t, hostAct .reset s = .next t ∧ t.flags = s.flags ∧ Unchanged [.flags, .rnd] (State.init c flagsInit) t

/-! ### Control flow (spec/40_flow.md) -/

/-- `JP addr` replaces `PC`, and a jump to its own address changes no state; `JP V0, addr` jumps to the sum of `addr` and V0 modulo
4096, whatever the `x` digit (R80, R83; V0 by the spec's decision D22). -/
def Obligations.JumpsReplacePc : Prop :=
  ∀ (addr : Addr) (s : State),
    (∃ t, exec (.jp addr) s = .next t ∧ t.pc = addr ∧ Unchanged [.pc] s t) ∧ exec (.jp s.pc) s = .next s ∧
    (∃ t, exec (.jpV0 addr) s = .next t ∧ t.pc.toNat = (addr.toNat + (s.readV 0).toNat) % 4096 ∧ Unchanged [.pc] s t)

/-- `CALL addr` below depth 15 stores its own address at `STACK[SP]`, increments `SP` and jumps (R81). -/
def Obligations.CallPushesItsOwnAddress : Prop :=
  ∀ (addr : Addr) (s : State), s.sp ≠ 15 →
    ∃ t, exec (.call addr) s = .next t ∧ t.pc = addr ∧ t.sp.toNat = s.sp.toNat + 1 ∧
      (∀ k : Fin 16, t.stack[k] = if k.val = s.sp.toNat then s.pc else s.stack[k]) ∧ Unchanged [.pc, .sp, .stack] s t

/-- `RET` with a call outstanding decrements `SP` and resumes at the instruction after that `CALL`; the popped entry keeps its
value (R82). -/
def Obligations.ReturnResumesAfterTheCall : Prop :=
  ∀ (s : State) (k : Fin 16), s.sp.toNat = k.val + 1 →
    ∃ t, exec .ret s = .next t ∧ t.sp.toNat = k.val ∧ t.pc = s.stack[k] + 2#12 ∧ Unchanged [.pc, .sp] s t

/-- `CALL` at `SP` = 15 and `RET` at `SP` = 0 write the fault record and nothing else (R172, R173, R175; the spec's decisions
D7, D27). -/
def Obligations.StackFaultsWriteOnlyErr : Prop :=
  (∀ (addr : Addr) (s : State), s.sp = 15 →
    ∃ t, exec (.call addr) s = .next t ∧ t.err = ⟨.stackOverflow, 0x2#4 ++ addr, s.pc⟩ ∧ Unchanged [.err] s t) ∧
  (∀ s : State, s.sp = 0 →
    ∃ t, exec .ret s = .next t ∧ t.err = ⟨.stackUnderflow, 0x00EE, s.pc⟩ ∧ Unchanged [.err] s t)

/-- `CALL addr` followed by `RET` leaves `PC` at the address after the `CALL` and `SP` as it was (R82, R204). -/
def Obligations.CallThenReturn : Prop :=
  ∀ (addr : Addr) (s : State), s.sp ≠ 15 →
    ∃ t u, exec (.call addr) s = .next t ∧ exec .ret t = .next u ∧ u.pc = s.pc + 2#12 ∧ u.sp = s.sp ∧
      Unchanged [.pc, .stack] s u

/-- The compare-and-skip instructions, and their encodings, go on at `PC` + 4 when their condition holds and at `PC` + 2 otherwise,
and write nothing else; a nonzero last digit of the two register forms makes the word unrecognized (R84, R85, R86, R87; `PC` is
12 bits wide, log entry 10). -/
def Obligations.CompareSkips : Prop :=
  ∀ (x y : RegIx) (kk : Byte) (s : State),
    (decodeWord (wordOfByte 0x3#4 x kk) = some (.seByte x kk) ∧
      ∃ t, exec (.seByte x kk) s = .next t ∧ t.pc = s.pc + (if s.readV x = kk then 4#12 else 2#12) ∧ Unchanged [.pc] s t) ∧
    (decodeWord (wordOfByte 0x4#4 x kk) = some (.sneByte x kk) ∧
      ∃ t, exec (.sneByte x kk) s = .next t ∧ t.pc = s.pc + (if s.readV x ≠ kk then 4#12 else 2#12) ∧ Unchanged [.pc] s t) ∧
    (decodeWord (wordOfNibbles 0x5#4 x y 0x0#4) = some (.seReg x y) ∧
      (∀ n, n ≠ 0x0#4 → decodeWord (wordOfNibbles 0x5#4 x y n) = none) ∧
      ∃ t, exec (.seReg x y) s = .next t ∧ t.pc = s.pc + (if s.readV x = s.readV y then 4#12 else 2#12) ∧
        Unchanged [.pc] s t) ∧
    (decodeWord (wordOfNibbles 0x9#4 x y 0x0#4) = some (.sneReg x y) ∧
      (∀ n, n ≠ 0x0#4 → decodeWord (wordOfNibbles 0x9#4 x y n) = none) ∧
      ∃ t, exec (.sneReg x y) s = .next t ∧ t.pc = s.pc + (if s.readV x ≠ s.readV y then 4#12 else 2#12) ∧
        Unchanged [.pc] s t)

/-- `EXIT` sets the flag and goes on at the next instruction; nothing else is reset or written (R88; the spec's decision
D23). -/
def Obligations.ExitSetsTheFlagAndGoesOn : Prop :=
  ∀ s : State, ∃ t, exec .exit s = .next t ∧ t.exit = true ∧ t.pc = s.pc + 2#12 ∧ Unchanged [.exit, .pc] s t

/-! ### Registers, arithmetic, logic, random (spec/41_alu.md) -/

/-- The loads of a register, and their encodings: `V[x]` takes the byte, or the value of `V[y]`; no other register changes (R101, R103). -/
def Obligations.RegisterLoads : Prop :=
  ∀ (x y : RegIx) (kk : Byte) (s : State),
    decodeWord (wordOfByte 0x6#4 x kk) = some (.ldByte x kk) ∧
    decodeWord (wordOfNibbles 0x8#4 x y 0x0#4) = some (.ldReg x y) ∧
    (∃ t, exec (.ldByte x kk) s = .next t ∧ t.readV x = kk ∧ (∀ r, r ≠ x → t.readV r = s.readV r) ∧
      t.pc = s.pc + 2#12 ∧ Unchanged [.v, .pc] s t) ∧
    (∃ t, exec (.ldReg x y) s = .next t ∧ t.readV x = s.readV y ∧ (∀ r, r ≠ x → t.readV r = s.readV r) ∧
      t.pc = s.pc + 2#12 ∧ Unchanged [.v, .pc] s t)

/-- `ADD Vx, byte` wraps modulo 256 and touches no other register, VF included (R102; VF by the spec's decision D21). -/
def Obligations.AddByteWrapsWithoutFlag : Prop :=
  ∀ (x : RegIx) (kk : Byte) (s : State),
    ∃ t, exec (.addByte x kk) s = .next t ∧ (t.readV x).toNat = ((s.readV x).toNat + kk.toNat) % 256 ∧
      (∀ r, r ≠ x → t.readV r = s.readV r) ∧ t.pc = s.pc + 2#12 ∧ Unchanged [.v, .pc] s t

/-- `OR`, `AND`, `XOR` work bit by bit and leave every other register alone, VF included (R104, R105, R106; VF by the
spec's decision D21). -/
def Obligations.LogicIsBitwiseWithoutFlag : Prop :=
  ∀ (x y : RegIx) (s : State),
    (∃ t, exec (.orReg x y) s = .next t ∧
      (∀ k, (t.readV x).getLsbD k = ((s.readV x).getLsbD k || (s.readV y).getLsbD k)) ∧
      (∀ r, r ≠ x → t.readV r = s.readV r) ∧ t.pc = s.pc + 2#12 ∧ Unchanged [.v, .pc] s t) ∧
    (∃ t, exec (.andReg x y) s = .next t ∧
      (∀ k, (t.readV x).getLsbD k = ((s.readV x).getLsbD k && (s.readV y).getLsbD k)) ∧
      (∀ r, r ≠ x → t.readV r = s.readV r) ∧ t.pc = s.pc + 2#12 ∧ Unchanged [.v, .pc] s t) ∧
    (∃ t, exec (.xorReg x y) s = .next t ∧
      (∀ k, (t.readV x).getLsbD k = ((s.readV x).getLsbD k ^^ (s.readV y).getLsbD k)) ∧
      (∀ r, r ≠ x → t.readV r = s.readV r) ∧ t.pc = s.pc + 2#12 ∧ Unchanged [.v, .pc] s t)

/-- `ADD Vx, Vy`: VF = 1 iff the sum exceeds 255, `Vx` the sum modulo 256; with `x` = 15 the flag is what remains; both operands
are the old values, `y` = 15 included; its encoding is `8xy4` (R107). -/
def Obligations.AddSetsCarry : Prop :=
  ∀ (x y : RegIx) (s : State),
    decodeWord (wordOfNibbles 0x8#4 x y 0x4#4) = some (.addReg x y) ∧
    ∃ t, exec (.addReg x y) s = .next t ∧
      (x ≠ vf → (t.readV x).toNat = ((s.readV x).toNat + (s.readV y).toNat) % 256) ∧
      t.readV vf = (if (s.readV x).toNat + (s.readV y).toNat > 255 then 1 else 0) ∧
      (∀ r, r ≠ x → r ≠ vf → t.readV r = s.readV r) ∧ t.pc = s.pc + 2#12 ∧ Unchanged [.v, .pc] s t

/-- `SUB Vx, Vy` and `SUBN Vx, Vy`: the difference modulo 256, and VF = 1 iff the minuend is greater than or equal to the
subtrahend; with `x` = 15 the flag is what remains; their encodings are `8xy5` and `8xy7` (R108, R110). -/
def Obligations.SubtractSetsNoBorrow : Prop :=
  ∀ (x y : RegIx) (s : State),
    decodeWord (wordOfNibbles 0x8#4 x y 0x5#4) = some (.sub x y) ∧
    decodeWord (wordOfNibbles 0x8#4 x y 0x7#4) = some (.subn x y) ∧
    (∃ t, exec (.sub x y) s = .next t ∧
      (x ≠ vf → ((t.readV x).toNat : Int) = ((s.readV x).toNat - (s.readV y).toNat : Int) % 256) ∧
      t.readV vf = (if (s.readV x).toNat ≥ (s.readV y).toNat then 1 else 0) ∧
      (∀ r, r ≠ x → r ≠ vf → t.readV r = s.readV r) ∧ t.pc = s.pc + 2#12 ∧ Unchanged [.v, .pc] s t) ∧
    (∃ t, exec (.subn x y) s = .next t ∧
      (x ≠ vf → ((t.readV x).toNat : Int) = ((s.readV y).toNat - (s.readV x).toNat : Int) % 256) ∧
      t.readV vf = (if (s.readV y).toNat ≥ (s.readV x).toNat then 1 else 0) ∧
      (∀ r, r ≠ x → r ≠ vf → t.readV r = s.readV r) ∧ t.pc = s.pc + 2#12 ∧ Unchanged [.v, .pc] s t)

/-- `SHR Vx` and `SHL Vx` move `V[x]` by one bit, whatever `y` is, and VF receives the bit moved out; with `x` = 15 the flag is
what remains; their encodings are `8xy6` and `8xyE` (R109, R111). -/
def Obligations.ShiftsMoveOneBit : Prop :=
  ∀ (x y : RegIx) (s : State),
    decodeWord (wordOfNibbles 0x8#4 x y 0x6#4) = some (.shr x y) ∧
    decodeWord (wordOfNibbles 0x8#4 x y 0xE#4) = some (.shl x y) ∧
    (∃ t, exec (.shr x y) s = .next t ∧ (x ≠ vf → (t.readV x).toNat = (s.readV x).toNat / 2) ∧
      (t.readV vf).toNat = (s.readV x).toNat % 2 ∧
      (∀ r, r ≠ x → r ≠ vf → t.readV r = s.readV r) ∧ t.pc = s.pc + 2#12 ∧ Unchanged [.v, .pc] s t) ∧
    (∃ t, exec (.shl x y) s = .next t ∧ (x ≠ vf → (t.readV x).toNat = (s.readV x).toNat * 2 % 256) ∧
      (t.readV vf).toNat = (s.readV x).toNat / 128 ∧
      (∀ r, r ≠ x → r ≠ vf → t.readV r = s.readV r) ∧ t.pc = s.pc + 2#12 ∧ Unchanged [.v, .pc] s t)

/-- `RND Vx, byte`: the random byte of the step under the mask `kk`, so 0 wherever the mask is 0; the next draw is another free
value (R112; the byte is free by the spec's decision D31, log entry 2). -/
def Obligations.RandomByteUnderMask : Prop :=
  ∀ (x : RegIx) (kk : Byte) (s : State),
    ∃ t, exec (.rnd x kk) s = .next t ∧ (∀ k, (t.readV x).getLsbD k = ((Config.rnd s.rndIx).getLsbD k && kk.getLsbD k)) ∧
      t.rndIx = s.rndIx + 1 ∧ (∀ r, r ≠ x → t.readV r = s.readV r) ∧ t.pc = s.pc + 2#12 ∧ Unchanged [.v, .pc, .rnd] s t

/-! ### Index register, memory, flags store (spec/42_index_memory.md) -/

/-- `ADD I, Vx`: the sum modulo 65536; VF = 1 iff it exceeds 0xFFFF when `ADDI_CARRY` is true, in both modes, and VF untouched
when it is false (R121; the spec's decision D19). -/
def Obligations.AddIndexCarry : Prop :=
  ∀ (x : RegIx) (s : State),
    ∃ t, exec (.addI x) s = .next t ∧ t.i.toNat = (s.i.toNat + (s.readV x).toNat) % 65536 ∧
      t.readV vf = (if s.cfg.addiCarry then (if s.i.toNat + (s.readV x).toNat > 0xFFFF then 1 else 0) else s.readV vf) ∧
      (∀ r, r ≠ vf → t.readV r = s.readV r) ∧ t.pc = s.pc + 2#12 ∧ Unchanged [.i, .v, .pc] s t

/-- `LD I, addr` loads the zero-extended address, and the glyph lookups add 5 or 10 times the whole 8-bit register to the instance's
`FONT_LO_BASE` or to the `FONT_HI_BASE` 80 bytes behind it (R120, R122, R123; no mask and the bases by the spec's decisions D16, D2). -/
def Obligations.IndexLoads : Prop :=
  ∀ (addr : Addr) (x : RegIx) (s : State),
    (∃ t, exec (.ldI addr) s = .next t ∧ t.i.toNat = addr.toNat ∧ t.pc = s.pc + 2#12 ∧ Unchanged [.i, .pc] s t) ∧
    (∃ t, exec (.ldF x) s = .next t ∧ t.i.toNat = s.cfg.fontLoBase.toNat + 5 * (s.readV x).toNat ∧ t.pc = s.pc + 2#12 ∧
      Unchanged [.i, .pc] s t) ∧
    (∃ t, exec (.ldHf x) s = .next t ∧ t.i.toNat = s.cfg.fontLoBase.toNat + 80 + 10 * (s.readV x).toNat ∧
      t.pc = s.pc + 2#12 ∧ Unchanged [.i, .pc] s t)

/-- `LD B, Vx`: hundreds, tens and ones of `V[x]` at `I`, `I` + 1, `I` + 2 modulo 4096, and no other byte of memory changes
(R124, R127). -/
def Obligations.DecimalDigitsAreStored : Prop :=
  ∀ (x : RegIx) (s : State),
    ∃ t, exec (.ldB x) s = .next t ∧
      (t.readByte (s.dataAddr 0)).toNat = (s.readV x).toNat / 100 ∧
      (t.readByte (s.dataAddr 1)).toNat = (s.readV x).toNat / 10 % 10 ∧
      (t.readByte (s.dataAddr 2)).toNat = (s.readV x).toNat % 10 ∧
      (∀ k, s.dataAddr k = (s.i.toNat + k) % 4096) ∧
      (∀ a, (∀ k, k < 3 → a % 4096 ≠ s.dataAddr k) → t.readByte a = s.readByte a) ∧
      t.pc = s.pc + 2#12 ∧ Unchanged [.mem, .pc] s t

/-- `LD [I], Vx`: `V[k]` at `I` + k modulo 4096 for `k` = 0 to `x`, and no other byte of memory changes; `I` is unchanged (R125;
the spec's decision D17). -/
def Obligations.RegistersAreStored : Prop :=
  ∀ (x : RegIx) (s : State),
    ∃ t, exec (.storeRegs x) s = .next t ∧
      (∀ r : RegIx, r ≤ x → t.readByte (s.dataAddr r.val) = s.readV r) ∧
      (∀ k, s.dataAddr k = (s.i.toNat + k) % 4096) ∧
      (∀ a, (∀ k, k ≤ x.val → a % 4096 ≠ s.dataAddr k) → t.readByte a = s.readByte a) ∧
      t.pc = s.pc + 2#12 ∧ Unchanged [.mem, .pc] s t

/-- `LD Vx, [I]`: `V[k]` takes the byte at `I` + k modulo 4096 for `k` = 0 to `x`; registers above `x`, memory and `I` are
unchanged (R126; the spec's decision D17). -/
def Obligations.RegistersAreLoaded : Prop :=
  ∀ (x : RegIx) (s : State),
    ∃ t, exec (.loadRegs x) s = .next t ∧
      (∀ r : RegIx, r ≤ x → t.readV r = s.readByte ((s.i.toNat + r.val) % 4096)) ∧
      (∀ r : RegIx, x < r → t.readV r = s.readV r) ∧ t.pc = s.pc + 2#12 ∧ Unchanged [.v, .pc] s t

/-- A block load from the same `I` restores what a block store saved, whatever happened to the registers and to `PC` in between
(R126, R204). -/
def Obligations.StoreThenLoadRestores : Prop :=
  ∀ (x : RegIx) (s : State),
    ∃ t, exec (.storeRegs x) s = .next t ∧
      ∀ t' : State, Unchanged [.v, .pc] t t' →
        ∃ u, exec (.loadRegs x) t' = .next u ∧ ∀ r : RegIx, r ≤ x → u.readV r = s.readV r

/-- The flags transfers move the eight registers V0 to V7, whatever `x` is, and touch neither `I` nor memory nor a register from
V8 on (R128, R129; the eight by the spec's decision D18). -/
def Obligations.FlagsTransfersMoveEight : Prop :=
  ∀ (x : RegIx) (s : State),
    (∃ t, exec (.saveFlags x) s = .next t ∧ (∀ k : Fin 8, t.flags[k] = s.readV (k.castLE (by decide))) ∧
      t.pc = s.pc + 2#12 ∧ Unchanged [.flags, .pc] s t) ∧
    (∃ t, exec (.loadFlags x) s = .next t ∧ (∀ k : Fin 8, t.readV (k.castLE (by decide)) = s.flags[k]) ∧
      (∀ r : RegIx, 8 ≤ r.val → t.readV r = s.readV r) ∧ t.pc = s.pc + 2#12 ∧ Unchanged [.v, .pc] s t)

/-- Registers saved in the flags store survive a reset (R20, R191): saved, reset, loaded, V0 to V7 are what they were. -/
def Obligations.FlagsStoreSurvivesReset : Prop :=
  ∀ (x y : RegIx) (s : State),
    ∃ t u v, exec (.saveFlags x) s = .next t ∧ hostAct .reset t = .next u ∧ exec (.loadFlags y) u = .next v ∧
      (∀ r : RegIx, r.val < 8 → v.readV r = s.readV r) ∧ ∀ r : RegIx, 8 ≤ r.val → v.readV r = 0

/-! ### Display (spec/43_display.md) -/

/-- `CLS`, the word 0x00E0, turns every cell off and sets `DIRTY`; mode, VF and all else are unchanged (R140). -/
def Obligations.ClearScreen : Prop :=
  decodeWord 0x00E0 = some .cls ∧
  ∀ s : State, ∃ t, exec .cls s = .next t ∧ (∀ x y, t.pixelAt x y = false) ∧ t.dirty = true ∧ t.pc = s.pc + 2#12 ∧
    Unchanged [.fb, .dirty, .pc] s t

/-- A resolution switch, `LOW` 0x00FE or `HIGH` 0x00FF, always yields an all-zero framebuffer of the new size, from either mode
(R142, R141; the two encodings by the spec's conflict entry C9, the size of `LOW` with `LORES_DOUBLED` by its decision D13). -/
def Obligations.ModeSwitchClears : Prop :=
  decodeWord 0x00FE = some .low ∧ decodeWord 0x00FF = some .high ∧
  ∀ s : State,
    (∃ t, exec .low s = .next t ∧ t.mode = .low ∧ (∀ x y, t.pixelAt x y = false) ∧
      t.width = (if s.cfg.loresDoubled then 128 else 64) ∧ t.height = (if s.cfg.loresDoubled then 64 else 32) ∧
      t.dirty = true ∧ t.pc = s.pc + 2#12 ∧ Unchanged [.mode, .fb, .dirty, .pc] s t) ∧
    (∃ t, exec .high s = .next t ∧ t.mode = .high ∧ (∀ x y, t.pixelAt x y = false) ∧ t.width = 128 ∧ t.height = 64 ∧
      t.dirty = true ∧ t.pc = s.pc + 2#12 ∧ Unchanged [.mode, .fb, .dirty, .pc] s t)

/-- `SCD n`: every row of the active buffer takes the row `n` above it, the top `n` rows become 0 (R143; the distance is the same
in both modes by the spec's decision D35). -/
def Obligations.ScrollDownMovesRows : Prop :=
  ∀ (n : Nibble) (s : State),
    ∃ t, exec (.scd n) s = .next t ∧
      (∀ x y, x < s.width → y < s.height →
        t.pixelAt x y = if n.toNat ≤ y then s.pixelAt x (y - n.toNat) else false) ∧
      t.dirty = true ∧ t.pc = s.pc + 2#12 ∧ Unchanged [.fb, .dirty, .pc] s t

/-- `SCR` and `SCL` move every row of the active buffer by 4 cells; vacated columns become 0 and cells past the edge are discarded
(R144, R145; the same step in both modes by the spec's decision D35). -/
def Obligations.ScrollSidewaysMovesColumns : Prop :=
  ∀ s : State,
    (∃ t, exec .scr s = .next t ∧
      (∀ x y, x < s.width → y < s.height → t.pixelAt x y = if 4 ≤ x then s.pixelAt (x - 4) y else false) ∧
      t.dirty = true ∧ t.pc = s.pc + 2#12 ∧ Unchanged [.fb, .dirty, .pc] s t) ∧
    (∃ t, exec .scl s = .next t ∧
      (∀ x y, x < s.width → y < s.height → t.pixelAt x y = if x + 4 < s.width then s.pixelAt (x + 4) y else false) ∧
      t.dirty = true ∧ t.pc = s.pc + 2#12 ∧ Unchanged [.fb, .dirty, .pc] s t)

/-- `W()` / 4 successive `SCR` empty any buffer, in either resolution (R144, R204). -/
def Obligations.RepeatedScrollRightEmpties : Prop :=
  ∀ f : Nat → State, (∀ k, exec .scr (f k) = .next (f (k + 1))) →
    ∀ x y, (f ((f 0).width / 4)).pixelAt x y = false

/-- `DRW Vx, Vy, n`, one cell a pixel: exactly the plotted cells toggle, VF = 1 iff one of them was on before and 0 otherwise, and
nothing else but `DIRTY` and `PC` changes; coordinates are the old registers, VF included (R146, R149, R151; VF = 0 and
clipping by the spec's decisions D9, D10, the bit order by D11). -/
def Obligations.DrawTogglesThePlottedCells : Prop :=
  ∀ (x y : RegIx) (n : Nibble) (s : State), (s.cfg.loresDoubled = false ∨ s.mode = .high) →
    ∃ t, exec (.drw x y n) s = .next t ∧
      (∀ px py, t.pixelAt px py = true ↔ ¬(s.pixelAt px py = true ↔
        s.Plots x y n.toNat 8 (fun r c => (s.readByte (s.i.toNat + r)).getLsbD (7 - c)) px py)) ∧
      (t.readV vf = 1 ↔ ∃ px py, s.Plots x y n.toNat 8 (fun r c => (s.readByte (s.i.toNat + r)).getLsbD (7 - c)) px py ∧
        s.pixelAt px py = true) ∧
      (t.readV vf = 0 ∨ t.readV vf = 1) ∧ (∀ r, r ≠ vf → t.readV r = s.readV r) ∧
      t.dirty = true ∧ t.pc = s.pc + 2#12 ∧ Unchanged [.fb, .v, .dirty, .pc] s t

/-- `DRW Vx, Vy, 0` in High mode draws the 16 × 16 sprite of 32 bytes at `I`, two bytes a row, the left half first, by the same rule
as the narrow draw; in Low mode it is a draw of zero rows: no cell changes, VF = 0, `DIRTY` is set (R147, R150, R151; Low mode by
the spec's decision D12). -/
def Obligations.WideDrawTogglesThePlottedCells : Prop :=
  ∀ (x y : RegIx) (s : State),
    (s.mode = .high → ∃ t, exec (.drwWide x y) s = .next t ∧
      (∀ px py, t.pixelAt px py = true ↔ ¬(s.pixelAt px py = true ↔
        s.Plots x y 16 16 (fun r c => if c < 8 then (s.readByte (s.i.toNat + 2 * r)).getLsbD (7 - c)
          else (s.readByte (s.i.toNat + 2 * r + 1)).getLsbD (15 - c)) px py)) ∧
      (t.readV vf = 1 ↔ ∃ px py, s.Plots x y 16 16 (fun r c => if c < 8 then (s.readByte (s.i.toNat + 2 * r)).getLsbD (7 - c)
          else (s.readByte (s.i.toNat + 2 * r + 1)).getLsbD (15 - c)) px py ∧ s.pixelAt px py = true) ∧
      (t.readV vf = 0 ∨ t.readV vf = 1) ∧ (∀ r, r ≠ vf → t.readV r = s.readV r) ∧
      t.dirty = true ∧ t.pc = s.pc + 2#12 ∧ Unchanged [.fb, .v, .dirty, .pc] s t) ∧
    (s.mode = .low → ∃ t, exec (.drwWide x y) s = .next t ∧ t.readV vf = 0 ∧ (∀ r, r ≠ vf → t.readV r = s.readV r) ∧
      t.dirty = true ∧ t.pc = s.pc + 2#12 ∧ Unchanged [.v, .dirty, .pc] s t)

/-- With `LORES_DOUBLED`, a Low-mode draw toggles the 2 × 2 block of every plotted logical pixel and samples the collision from its
top-left cell (R148, R149; the spec's decision D13). -/
def Obligations.DoubledDrawTogglesBlocks : Prop :=
  ∀ (x y : RegIx) (n : Nibble) (s : State), s.cfg.loresDoubled = true → s.mode = .low →
    ∃ t, exec (.drw x y n) s = .next t ∧
      (∀ px py, t.pixelAt px py = true ↔ ¬(s.pixelAt px py = true ↔
        s.Plots x y n.toNat 8 (fun r c => (s.readByte (s.i.toNat + r)).getLsbD (7 - c)) (px / 2) (py / 2))) ∧
      (t.readV vf = 1 ↔ ∃ lx ly, s.Plots x y n.toNat 8 (fun r c => (s.readByte (s.i.toNat + r)).getLsbD (7 - c)) lx ly ∧
        s.pixelAt (2 * lx) (2 * ly) = true) ∧
      (t.readV vf = 0 ∨ t.readV vf = 1) ∧ (∀ r, r ≠ vf → t.readV r = s.readV r) ∧
      t.dirty = true ∧ t.pc = s.pc + 2#12 ∧ Unchanged [.fb, .v, .dirty, .pc] s t

/-- Drawing the same sprite twice at the same place, the coordinates not in VF, restores every cell, in every mode and for both forms;
and the second draw reports VF = 1 exactly when the sampled cell of some plotted pixel was off before the first (R152; the sampled cell
of a doubled pixel is its top-left one by the spec's decision D13). -/
def Obligations.DrawTwiceRestores : Prop :=
  ∀ (x y : RegIx) (n : Nibble) (s : State) (z : Nat), x ≠ vf → y ≠ vf →
    z = (if s.cfg.loresDoubled = true ∧ s.mode = .low then 2 else 1) →
    (∃ t u, exec (.drw x y n) s = .next t ∧ exec (.drw x y n) t = .next u ∧
      (∀ px py, u.pixelAt px py = s.pixelAt px py) ∧ (u.readV vf = 0 ∨ u.readV vf = 1) ∧
      (u.readV vf = 1 ↔ ∃ lx ly, s.Plots x y n.toNat 8 (fun r c => (s.readByte (s.i.toNat + r)).getLsbD (7 - c)) lx ly ∧
        s.pixelAt (z * lx) (z * ly) = false)) ∧
    (∃ t u, exec (.drwWide x y) s = .next t ∧ exec (.drwWide x y) t = .next u ∧
      (∀ px py, u.pixelAt px py = s.pixelAt px py) ∧ (u.readV vf = 0 ∨ u.readV vf = 1) ∧
      (u.readV vf = 1 ↔ s.mode = .high ∧ ∃ lx ly,
        s.Plots x y 16 16 (fun r c => if c < 8 then (s.readByte (s.i.toNat + 2 * r)).getLsbD (7 - c)
          else (s.readByte (s.i.toNat + 2 * r + 1)).getLsbD (15 - c)) lx ly ∧ s.pixelAt lx ly = false))

/-! ### Keyboard and timers (spec/44_keys_timers.md) -/

/-- `SKP` and `SKNP` skip on the level of the key that the low 4 bits of `V[x]` select (R160, R161; the low bits by the spec's
decision D15). -/
def Obligations.KeySkips : Prop :=
  ∀ (x : RegIx) (s : State) (k : RegIx), k.val = (s.readV x).toNat % 16 →
    (∃ t, exec (.skp x) s = .next t ∧ t.pc.toNat = (s.pc.toNat + if s.key[k] = true then 4 else 2) % 4096 ∧
      Unchanged [.pc] s t) ∧
    (∃ t, exec (.sknp x) s = .next t ∧ t.pc.toNat = (s.pc.toNat + if s.key[k] = false then 4 else 2) % 4096 ∧
      Unchanged [.pc] s t)

/-- `LD Vx, K` with a key down captures the lowest-numbered one and goes on, Running, in AwaitingKey and outside it alike; with no
key down it sets AwaitingKey and moves nothing else, `PC` included (R162; the lowest by the spec's decision D14). -/
def Obligations.KeyWaitCapturesOrPolls : Prop :=
  ∀ (x : RegIx) (s : State),
    (∀ k : RegIx, s.key[k] = true → (∀ j : RegIx, j < k → s.key[j] = false) →
      ∃ t, exec (.ldVxK x) s = .next t ∧ (t.readV x).toNat = k.val ∧ t.waiting = false ∧ t.pc = s.pc + 2#12 ∧
        (∀ r, r ≠ x → t.readV r = s.readV r) ∧ Unchanged [.v, .waiting, .pc] s t) ∧
    ((∀ k : RegIx, s.key[k] = false) →
      ∃ t, exec (.ldVxK x) s = .next t ∧ t.waiting = true ∧ Unchanged [.waiting] s t)

/-- A machine in AwaitingKey at a key wait with no key down stays where it is for any number of steps: no step leaves AwaitingKey
without a key (R162, R206). -/
def Obligations.AwaitingKeyLastsWithoutAKey : Prop :=
  ∀ (n : Nat) (x : RegIx) (s : State), s.err.code = .none → s.waiting = true →
    decodeWord (fetchWord s) = some (.ldVxK x) → (∀ k : RegIx, s.key[k] = false) →
    Host.Core.run core n s = .next s

/-- The timer instructions, `Fx07`, `Fx15` and `Fx18`, move a byte between `V[x]` and a timer; `SOUND_ON` is on exactly when `ST` is not 0 (R163, R164, R165,
R18). -/
def Obligations.TimerTransfers : Prop :=
  ∀ (x : RegIx) (s : State),
    decodeWord (wordOfByte 0xF#4 x 0x07#8) = some (.ldVxDt x) ∧ decodeWord (wordOfByte 0xF#4 x 0x15#8) = some (.ldDtVx x) ∧
    decodeWord (wordOfByte 0xF#4 x 0x18#8) = some (.ldStVx x) ∧
    (∃ t, exec (.ldVxDt x) s = .next t ∧ t.readV x = s.dt ∧ (∀ r, r ≠ x → t.readV r = s.readV r) ∧ t.pc = s.pc + 2#12 ∧
      Unchanged [.v, .pc] s t) ∧
    (∃ t, exec (.ldDtVx x) s = .next t ∧ t.dt = s.readV x ∧ t.pc = s.pc + 2#12 ∧ Unchanged [.dt, .pc] s t) ∧
    (∃ t, exec (.ldStVx x) s = .next t ∧ t.st = s.readV x ∧ (t.soundOn = true ↔ s.readV x ≠ 0) ∧ t.pc = s.pc + 2#12 ∧
      Unchanged [.st, .pc] s t)

/-! ### The host (spec/70_reset_and_hazards.md) -/

/-- `tick` decrements each timer that is not 0 and leaves a 0 at 0 (R195; the floor is the spec's general knowledge G4). -/
def Obligations.TickStopsAtZero : Prop :=
  ∀ s : State, ∃ t, hostAct .tick s = .next t ∧ t.dt.toNat = s.dt.toNat - 1 ∧ t.st.toNat = s.st.toNat - 1 ∧
    Unchanged [.dt, .st] s t

/-- `set_keys`, `clear_dirty` and `request_exit` write their register and nothing else, in every state, the halted one included
(R196, R197, R176; `request_exit`, R198, by the spec's decision D23). -/
def Obligations.HostWritesOneRegister : Prop :=
  ∀ (k : Vector Bool 16) (s : State),
    (∃ t, hostAct (.setKeys k) s = .next t ∧ (∀ j : Fin 16, t.key[j] = k[j]) ∧ Unchanged [.key] s t) ∧
    (∃ t, hostAct .clearDirty s = .next t ∧ t.dirty = false ∧ Unchanged [.dirty] s t) ∧
    (∃ t, hostAct .requestExit s = .next t ∧ t.exit = true ∧ Unchanged [.exit] s t)

/-! ### The whole machine (spec/10_state.md R32, R33) -/

/-- The access matrix: whatever instruction runs, in whatever state, it writes no item and no register outside its row (R32, R33;
`KEY`, the configuration and, but for the two stack faults, `ERR` are in no row). -/
def Obligations.WritesStayInTheAccessMatrix : Prop :=
  ∀ (i : Instr) (s t : State), exec i s = .next t →
    Unchanged (.pc :: writes i) s t ∧ ∀ r, writesReg i r = false → t.readV r = s.readV r

/-- No instruction reads `ST`, `DIRTY`, `EXIT` or `WAITING` (R18, R23, R25, R26, R32): with other values in them it does the same to
everything else. -/
def Obligations.StatusOutputsAreNotRead : Prop :=
  ∀ (i : Instr) (s s' t : State), Unchanged [.st, .dirty, .exit, .waiting] s s' → exec i s = .next t →
    ∃ t', exec i s' = .next t' ∧ Unchanged [.st, .dirty, .exit, .waiting] t t'

/-- A step never writes the keyboard latch or the configuration, never clears `DIRTY` or `EXIT`, and never clears a fault (R33, R176,
R177). -/
def Obligations.StepNeverClearsWhatTheHostClears : Prop :=
  ∀ s t : State, step s = .next t →
    t.key = s.key ∧ t.cfg = s.cfg ∧ (s.dirty = true → t.dirty = true) ∧ (s.exit = true → t.exit = true) ∧
    (s.err.code ≠ .none → t.err = s.err)

/-! ### Parameters (spec/00_scope.md R6) and the end of a run (spec/70_reset_and_hazards.md R203) -/

/-- The parameters of the state after reset are those the spec takes (R6; its decisions D1, D2, D19, D37): `PROG_BASE` 0x200, where
`PC` points, `FONT_LO_BASE` 0x000, `FONT_HI_BASE` 0x050, room for a `ROM` of 3584 bytes, `ADDI_CARRY` true. -/
def Obligations.ResetTakesTheSpecsParameters : Prop :=
  State.reset.cfg.progBase = 0x200 ∧ State.reset.pc = 0x200 ∧ State.reset.cfg.fontLoBase = 0x000 ∧
  fontHiBase State.reset.cfg = 0x050 ∧ maxRom State.reset.cfg = 3584 ∧ State.reset.cfg.addiCarry = true

/-- A run ends at the first moment `EXIT` is 1, or at its fault (R203; the host's `request_exit` and the fault record by the spec's
decisions D23, D27): the state in which `runToEnd` stops is the one after the first `n` operations, in every state before it `EXIT` is
0 and there is no fault, a run that has not ended has used all its operations, and what the host would do after the end does not
matter. -/
def Obligations.RunEndsAtTheFirstExit : Prop :=
  ∀ (es : List Event) (s t : State), runToEnd es s = .next t →
    (∃ n, n ≤ es.length ∧ runEvents (es.take n) s = .next t ∧
      (∀ m, m < n → ∃ u, runEvents (es.take m) s = .next u ∧ u.exit = false ∧ u.err.code = .none) ∧
      (t.exit = false → t.err.code = .none → n = es.length)) ∧
    (t.exit = true ∨ t.err.code ≠ .none → ∀ more, runToEnd (es ++ more) s = .next t) ∧
    (t.runEnd = some .normal ↔ t.exit = true ∧ t.err.code = .none) ∧ (t.runEnd = some .abnormal ↔ t.err.code ≠ .none)
end

