-- ==== Sys2Proof/Laws/State.lean ====
section
/-! SUPPORT. The fields of the state after each basic update, and what the accessors then read: all true by unfolding, all
for the simplifier, so that no later proof unfolds a record update. The derived updates (`advance`, `skipIf`, `writeFlag`,
`writeResultThenFlag`) are rewritten to the basic ones. -/

namespace Sys2Proof.Machine

@[simp] theorem State.advance_eq (s : State) : s.advance = s.jumpTo (pcPlus s.pc 2) := rfl
@[simp] theorem State.skipIf_eq (s : State) (c : Bool) : s.skipIf c = s.jumpTo (pcPlus s.pc (if c then 4 else 2)) := rfl
@[simp] theorem State.writeFlag_eq (s : State) (f : Bool) : s.writeFlag f = s.writeV vf (flagByte f) := rfl
@[simp] theorem State.writeResultThenFlag_eq (s : State) (x : RegIx) (b : Byte) (f : Bool) :
    s.writeResultThenFlag x b f = (s.writeV x b).writeV vf (flagByte f) := rfl

/-! ### `writeByte` -/

@[simp] theorem State.writeByte_v (s : State) (a : Nat) (w : Byte) : (s.writeByte a w).v = s.v := rfl
@[simp] theorem State.writeByte_i (s : State) (a : Nat) (w : Byte) : (s.writeByte a w).i = s.i := rfl
@[simp] theorem State.writeByte_pc (s : State) (a : Nat) (w : Byte) : (s.writeByte a w).pc = s.pc := rfl
@[simp] theorem State.writeByte_sp (s : State) (a : Nat) (w : Byte) : (s.writeByte a w).sp = s.sp := rfl
@[simp] theorem State.writeByte_stack (s : State) (a : Nat) (w : Byte) : (s.writeByte a w).stack = s.stack := rfl
@[simp] theorem State.writeByte_dt (s : State) (a : Nat) (w : Byte) : (s.writeByte a w).dt = s.dt := rfl
@[simp] theorem State.writeByte_st (s : State) (a : Nat) (w : Byte) : (s.writeByte a w).st = s.st := rfl
@[simp] theorem State.writeByte_key (s : State) (a : Nat) (w : Byte) : (s.writeByte a w).key = s.key := rfl
@[simp] theorem State.writeByte_flags (s : State) (a : Nat) (w : Byte) : (s.writeByte a w).flags = s.flags := rfl
@[simp] theorem State.writeByte_mode (s : State) (a : Nat) (w : Byte) : (s.writeByte a w).mode = s.mode := rfl
@[simp] theorem State.writeByte_fb (s : State) (a : Nat) (w : Byte) : (s.writeByte a w).fb = s.fb := rfl
@[simp] theorem State.writeByte_dirty (s : State) (a : Nat) (w : Byte) : (s.writeByte a w).dirty = s.dirty := rfl
@[simp] theorem State.writeByte_exit (s : State) (a : Nat) (w : Byte) : (s.writeByte a w).exit = s.exit := rfl
@[simp] theorem State.writeByte_waiting (s : State) (a : Nat) (w : Byte) : (s.writeByte a w).waiting = s.waiting := rfl
@[simp] theorem State.writeByte_err (s : State) (a : Nat) (w : Byte) : (s.writeByte a w).err = s.err := rfl
@[simp] theorem State.writeByte_mem (s : State) (a : Nat) (w : Byte) : (s.writeByte a w).mem = Memory.write (image s.cfg) s.mem (a % memSize) w := rfl
@[simp] theorem State.writeByte_cfg (s : State) (a : Nat) (w : Byte) : (s.writeByte a w).cfg = s.cfg := rfl
@[simp] theorem State.writeByte_rndIx (s : State) (a : Nat) (w : Byte) : (s.writeByte a w).rndIx = s.rndIx := rfl
@[simp] theorem State.writeByte_readV (s : State) (a : Nat) (w : Byte) (q : RegIx) : (s.writeByte a w).readV q = s.readV q := rfl
@[simp] theorem State.writeByte_pixelAt (s : State) (a : Nat) (w : Byte) (p q : Nat) : (s.writeByte a w).pixelAt p q = s.pixelAt p q := rfl

/-! ### `writeV` -/

@[simp] theorem State.writeV_v (s : State) (r : RegIx) (b : Byte) : (s.writeV r b).v = s.v.set r b := rfl
@[simp] theorem State.writeV_i (s : State) (r : RegIx) (b : Byte) : (s.writeV r b).i = s.i := rfl
@[simp] theorem State.writeV_pc (s : State) (r : RegIx) (b : Byte) : (s.writeV r b).pc = s.pc := rfl
@[simp] theorem State.writeV_sp (s : State) (r : RegIx) (b : Byte) : (s.writeV r b).sp = s.sp := rfl
@[simp] theorem State.writeV_stack (s : State) (r : RegIx) (b : Byte) : (s.writeV r b).stack = s.stack := rfl
@[simp] theorem State.writeV_dt (s : State) (r : RegIx) (b : Byte) : (s.writeV r b).dt = s.dt := rfl
@[simp] theorem State.writeV_st (s : State) (r : RegIx) (b : Byte) : (s.writeV r b).st = s.st := rfl
@[simp] theorem State.writeV_key (s : State) (r : RegIx) (b : Byte) : (s.writeV r b).key = s.key := rfl
@[simp] theorem State.writeV_flags (s : State) (r : RegIx) (b : Byte) : (s.writeV r b).flags = s.flags := rfl
@[simp] theorem State.writeV_mode (s : State) (r : RegIx) (b : Byte) : (s.writeV r b).mode = s.mode := rfl
@[simp] theorem State.writeV_fb (s : State) (r : RegIx) (b : Byte) : (s.writeV r b).fb = s.fb := rfl
@[simp] theorem State.writeV_dirty (s : State) (r : RegIx) (b : Byte) : (s.writeV r b).dirty = s.dirty := rfl
@[simp] theorem State.writeV_exit (s : State) (r : RegIx) (b : Byte) : (s.writeV r b).exit = s.exit := rfl
@[simp] theorem State.writeV_waiting (s : State) (r : RegIx) (b : Byte) : (s.writeV r b).waiting = s.waiting := rfl
@[simp] theorem State.writeV_err (s : State) (r : RegIx) (b : Byte) : (s.writeV r b).err = s.err := rfl
@[simp] theorem State.writeV_mem (s : State) (r : RegIx) (b : Byte) : (s.writeV r b).mem = s.mem := rfl
@[simp] theorem State.writeV_cfg (s : State) (r : RegIx) (b : Byte) : (s.writeV r b).cfg = s.cfg := rfl
@[simp] theorem State.writeV_rndIx (s : State) (r : RegIx) (b : Byte) : (s.writeV r b).rndIx = s.rndIx := rfl
@[simp] theorem State.writeV_readByte (s : State) (r : RegIx) (b : Byte) (q : Nat) : (s.writeV r b).readByte q = s.readByte q := rfl
@[simp] theorem State.writeV_pixelAt (s : State) (r : RegIx) (b : Byte) (p q : Nat) : (s.writeV r b).pixelAt p q = s.pixelAt p q := rfl

/-! ### `jumpTo` -/

@[simp] theorem State.jumpTo_v (s : State) (target : Addr) : (s.jumpTo target).v = s.v := rfl
@[simp] theorem State.jumpTo_i (s : State) (target : Addr) : (s.jumpTo target).i = s.i := rfl
@[simp] theorem State.jumpTo_pc (s : State) (target : Addr) : (s.jumpTo target).pc = target := rfl
@[simp] theorem State.jumpTo_sp (s : State) (target : Addr) : (s.jumpTo target).sp = s.sp := rfl
@[simp] theorem State.jumpTo_stack (s : State) (target : Addr) : (s.jumpTo target).stack = s.stack := rfl
@[simp] theorem State.jumpTo_dt (s : State) (target : Addr) : (s.jumpTo target).dt = s.dt := rfl
@[simp] theorem State.jumpTo_st (s : State) (target : Addr) : (s.jumpTo target).st = s.st := rfl
@[simp] theorem State.jumpTo_key (s : State) (target : Addr) : (s.jumpTo target).key = s.key := rfl
@[simp] theorem State.jumpTo_flags (s : State) (target : Addr) : (s.jumpTo target).flags = s.flags := rfl
@[simp] theorem State.jumpTo_mode (s : State) (target : Addr) : (s.jumpTo target).mode = s.mode := rfl
@[simp] theorem State.jumpTo_fb (s : State) (target : Addr) : (s.jumpTo target).fb = s.fb := rfl
@[simp] theorem State.jumpTo_dirty (s : State) (target : Addr) : (s.jumpTo target).dirty = s.dirty := rfl
@[simp] theorem State.jumpTo_exit (s : State) (target : Addr) : (s.jumpTo target).exit = s.exit := rfl
@[simp] theorem State.jumpTo_waiting (s : State) (target : Addr) : (s.jumpTo target).waiting = s.waiting := rfl
@[simp] theorem State.jumpTo_err (s : State) (target : Addr) : (s.jumpTo target).err = s.err := rfl
@[simp] theorem State.jumpTo_mem (s : State) (target : Addr) : (s.jumpTo target).mem = s.mem := rfl
@[simp] theorem State.jumpTo_cfg (s : State) (target : Addr) : (s.jumpTo target).cfg = s.cfg := rfl
@[simp] theorem State.jumpTo_rndIx (s : State) (target : Addr) : (s.jumpTo target).rndIx = s.rndIx := rfl
@[simp] theorem State.jumpTo_readV (s : State) (target : Addr) (q : RegIx) : (s.jumpTo target).readV q = s.readV q := rfl
@[simp] theorem State.jumpTo_readByte (s : State) (target : Addr) (q : Nat) : (s.jumpTo target).readByte q = s.readByte q := rfl
@[simp] theorem State.jumpTo_pixelAt (s : State) (target : Addr) (p q : Nat) : (s.jumpTo target).pixelAt p q = s.pixelAt p q := rfl

/-! ### `push` -/

@[simp] theorem State.push_v (s : State) (a : Addr) : (s.push a).v = s.v := rfl
@[simp] theorem State.push_i (s : State) (a : Addr) : (s.push a).i = s.i := rfl
@[simp] theorem State.push_pc (s : State) (a : Addr) : (s.push a).pc = s.pc := rfl
@[simp] theorem State.push_sp (s : State) (a : Addr) : (s.push a).sp = s.sp + 1 := rfl
@[simp] theorem State.push_stack (s : State) (a : Addr) : (s.push a).stack = s.stack.set s.sp.toNat a s.sp.isLt := rfl
@[simp] theorem State.push_dt (s : State) (a : Addr) : (s.push a).dt = s.dt := rfl
@[simp] theorem State.push_st (s : State) (a : Addr) : (s.push a).st = s.st := rfl
@[simp] theorem State.push_key (s : State) (a : Addr) : (s.push a).key = s.key := rfl
@[simp] theorem State.push_flags (s : State) (a : Addr) : (s.push a).flags = s.flags := rfl
@[simp] theorem State.push_mode (s : State) (a : Addr) : (s.push a).mode = s.mode := rfl
@[simp] theorem State.push_fb (s : State) (a : Addr) : (s.push a).fb = s.fb := rfl
@[simp] theorem State.push_dirty (s : State) (a : Addr) : (s.push a).dirty = s.dirty := rfl
@[simp] theorem State.push_exit (s : State) (a : Addr) : (s.push a).exit = s.exit := rfl
@[simp] theorem State.push_waiting (s : State) (a : Addr) : (s.push a).waiting = s.waiting := rfl
@[simp] theorem State.push_err (s : State) (a : Addr) : (s.push a).err = s.err := rfl
@[simp] theorem State.push_mem (s : State) (a : Addr) : (s.push a).mem = s.mem := rfl
@[simp] theorem State.push_cfg (s : State) (a : Addr) : (s.push a).cfg = s.cfg := rfl
@[simp] theorem State.push_rndIx (s : State) (a : Addr) : (s.push a).rndIx = s.rndIx := rfl
@[simp] theorem State.push_readV (s : State) (a : Addr) (q : RegIx) : (s.push a).readV q = s.readV q := rfl
@[simp] theorem State.push_readByte (s : State) (a : Addr) (q : Nat) : (s.push a).readByte q = s.readByte q := rfl
@[simp] theorem State.push_pixelAt (s : State) (a : Addr) (p q : Nat) : (s.push a).pixelAt p q = s.pixelAt p q := rfl

/-! ### `pop` -/

@[simp] theorem State.pop_v (s : State) : (s.pop).v = s.v := rfl
@[simp] theorem State.pop_i (s : State) : (s.pop).i = s.i := rfl
@[simp] theorem State.pop_pc (s : State) : (s.pop).pc = s.pc := rfl
@[simp] theorem State.pop_sp (s : State) : (s.pop).sp = s.sp - 1 := rfl
@[simp] theorem State.pop_stack (s : State) : (s.pop).stack = s.stack := rfl
@[simp] theorem State.pop_dt (s : State) : (s.pop).dt = s.dt := rfl
@[simp] theorem State.pop_st (s : State) : (s.pop).st = s.st := rfl
@[simp] theorem State.pop_key (s : State) : (s.pop).key = s.key := rfl
@[simp] theorem State.pop_flags (s : State) : (s.pop).flags = s.flags := rfl
@[simp] theorem State.pop_mode (s : State) : (s.pop).mode = s.mode := rfl
@[simp] theorem State.pop_fb (s : State) : (s.pop).fb = s.fb := rfl
@[simp] theorem State.pop_dirty (s : State) : (s.pop).dirty = s.dirty := rfl
@[simp] theorem State.pop_exit (s : State) : (s.pop).exit = s.exit := rfl
@[simp] theorem State.pop_waiting (s : State) : (s.pop).waiting = s.waiting := rfl
@[simp] theorem State.pop_err (s : State) : (s.pop).err = s.err := rfl
@[simp] theorem State.pop_mem (s : State) : (s.pop).mem = s.mem := rfl
@[simp] theorem State.pop_cfg (s : State) : (s.pop).cfg = s.cfg := rfl
@[simp] theorem State.pop_rndIx (s : State) : (s.pop).rndIx = s.rndIx := rfl
@[simp] theorem State.pop_readV (s : State) (q : RegIx) : (s.pop).readV q = s.readV q := rfl
@[simp] theorem State.pop_readByte (s : State) (q : Nat) : (s.pop).readByte q = s.readByte q := rfl
@[simp] theorem State.pop_pixelAt (s : State) (p q : Nat) : (s.pop).pixelAt p q = s.pixelAt p q := rfl

/-! ### `rndUsed` -/

@[simp] theorem State.rndUsed_v (s : State) : (s.rndUsed).v = s.v := rfl
@[simp] theorem State.rndUsed_i (s : State) : (s.rndUsed).i = s.i := rfl
@[simp] theorem State.rndUsed_pc (s : State) : (s.rndUsed).pc = s.pc := rfl
@[simp] theorem State.rndUsed_sp (s : State) : (s.rndUsed).sp = s.sp := rfl
@[simp] theorem State.rndUsed_stack (s : State) : (s.rndUsed).stack = s.stack := rfl
@[simp] theorem State.rndUsed_dt (s : State) : (s.rndUsed).dt = s.dt := rfl
@[simp] theorem State.rndUsed_st (s : State) : (s.rndUsed).st = s.st := rfl
@[simp] theorem State.rndUsed_key (s : State) : (s.rndUsed).key = s.key := rfl
@[simp] theorem State.rndUsed_flags (s : State) : (s.rndUsed).flags = s.flags := rfl
@[simp] theorem State.rndUsed_mode (s : State) : (s.rndUsed).mode = s.mode := rfl
@[simp] theorem State.rndUsed_fb (s : State) : (s.rndUsed).fb = s.fb := rfl
@[simp] theorem State.rndUsed_dirty (s : State) : (s.rndUsed).dirty = s.dirty := rfl
@[simp] theorem State.rndUsed_exit (s : State) : (s.rndUsed).exit = s.exit := rfl
@[simp] theorem State.rndUsed_waiting (s : State) : (s.rndUsed).waiting = s.waiting := rfl
@[simp] theorem State.rndUsed_err (s : State) : (s.rndUsed).err = s.err := rfl
@[simp] theorem State.rndUsed_mem (s : State) : (s.rndUsed).mem = s.mem := rfl
@[simp] theorem State.rndUsed_cfg (s : State) : (s.rndUsed).cfg = s.cfg := rfl
@[simp] theorem State.rndUsed_rndIx (s : State) : (s.rndUsed).rndIx = s.rndIx + 1 := rfl
@[simp] theorem State.rndUsed_readV (s : State) (q : RegIx) : (s.rndUsed).readV q = s.readV q := rfl
@[simp] theorem State.rndUsed_readByte (s : State) (q : Nat) : (s.rndUsed).readByte q = s.readByte q := rfl
@[simp] theorem State.rndUsed_pixelAt (s : State) (p q : Nat) : (s.rndUsed).pixelAt p q = s.pixelAt p q := rfl

/-! ### `writeI` -/

@[simp] theorem State.writeI_v (s : State) (w : Word) : (s.writeI w).v = s.v := rfl
@[simp] theorem State.writeI_i (s : State) (w : Word) : (s.writeI w).i = w := rfl
@[simp] theorem State.writeI_pc (s : State) (w : Word) : (s.writeI w).pc = s.pc := rfl
@[simp] theorem State.writeI_sp (s : State) (w : Word) : (s.writeI w).sp = s.sp := rfl
@[simp] theorem State.writeI_stack (s : State) (w : Word) : (s.writeI w).stack = s.stack := rfl
@[simp] theorem State.writeI_dt (s : State) (w : Word) : (s.writeI w).dt = s.dt := rfl
@[simp] theorem State.writeI_st (s : State) (w : Word) : (s.writeI w).st = s.st := rfl
@[simp] theorem State.writeI_key (s : State) (w : Word) : (s.writeI w).key = s.key := rfl
@[simp] theorem State.writeI_flags (s : State) (w : Word) : (s.writeI w).flags = s.flags := rfl
@[simp] theorem State.writeI_mode (s : State) (w : Word) : (s.writeI w).mode = s.mode := rfl
@[simp] theorem State.writeI_fb (s : State) (w : Word) : (s.writeI w).fb = s.fb := rfl
@[simp] theorem State.writeI_dirty (s : State) (w : Word) : (s.writeI w).dirty = s.dirty := rfl
@[simp] theorem State.writeI_exit (s : State) (w : Word) : (s.writeI w).exit = s.exit := rfl
@[simp] theorem State.writeI_waiting (s : State) (w : Word) : (s.writeI w).waiting = s.waiting := rfl
@[simp] theorem State.writeI_err (s : State) (w : Word) : (s.writeI w).err = s.err := rfl
@[simp] theorem State.writeI_mem (s : State) (w : Word) : (s.writeI w).mem = s.mem := rfl
@[simp] theorem State.writeI_cfg (s : State) (w : Word) : (s.writeI w).cfg = s.cfg := rfl
@[simp] theorem State.writeI_rndIx (s : State) (w : Word) : (s.writeI w).rndIx = s.rndIx := rfl
@[simp] theorem State.writeI_readV (s : State) (w : Word) (q : RegIx) : (s.writeI w).readV q = s.readV q := rfl
@[simp] theorem State.writeI_readByte (s : State) (w : Word) (q : Nat) : (s.writeI w).readByte q = s.readByte q := rfl
@[simp] theorem State.writeI_pixelAt (s : State) (w : Word) (p q : Nat) : (s.writeI w).pixelAt p q = s.pixelAt p q := rfl

/-! ### `saveToFlags` -/

@[simp] theorem State.saveToFlags_v (s : State) : (s.saveToFlags).v = s.v := rfl
@[simp] theorem State.saveToFlags_i (s : State) : (s.saveToFlags).i = s.i := rfl
@[simp] theorem State.saveToFlags_pc (s : State) : (s.saveToFlags).pc = s.pc := rfl
@[simp] theorem State.saveToFlags_sp (s : State) : (s.saveToFlags).sp = s.sp := rfl
@[simp] theorem State.saveToFlags_stack (s : State) : (s.saveToFlags).stack = s.stack := rfl
@[simp] theorem State.saveToFlags_dt (s : State) : (s.saveToFlags).dt = s.dt := rfl
@[simp] theorem State.saveToFlags_st (s : State) : (s.saveToFlags).st = s.st := rfl
@[simp] theorem State.saveToFlags_key (s : State) : (s.saveToFlags).key = s.key := rfl
@[simp] theorem State.saveToFlags_mode (s : State) : (s.saveToFlags).mode = s.mode := rfl
@[simp] theorem State.saveToFlags_fb (s : State) : (s.saveToFlags).fb = s.fb := rfl
@[simp] theorem State.saveToFlags_dirty (s : State) : (s.saveToFlags).dirty = s.dirty := rfl
@[simp] theorem State.saveToFlags_exit (s : State) : (s.saveToFlags).exit = s.exit := rfl
@[simp] theorem State.saveToFlags_waiting (s : State) : (s.saveToFlags).waiting = s.waiting := rfl
@[simp] theorem State.saveToFlags_err (s : State) : (s.saveToFlags).err = s.err := rfl
@[simp] theorem State.saveToFlags_mem (s : State) : (s.saveToFlags).mem = s.mem := rfl
@[simp] theorem State.saveToFlags_cfg (s : State) : (s.saveToFlags).cfg = s.cfg := rfl
@[simp] theorem State.saveToFlags_rndIx (s : State) : (s.saveToFlags).rndIx = s.rndIx := rfl
@[simp] theorem State.saveToFlags_readV (s : State) (q : RegIx) : (s.saveToFlags).readV q = s.readV q := rfl
@[simp] theorem State.saveToFlags_readByte (s : State) (q : Nat) : (s.saveToFlags).readByte q = s.readByte q := rfl
@[simp] theorem State.saveToFlags_pixelAt (s : State) (p q : Nat) : (s.saveToFlags).pixelAt p q = s.pixelAt p q := rfl

/-! ### `show` -/

@[simp] theorem State.show_v (s : State) (g : Grid) : (s.show g).v = s.v := rfl
@[simp] theorem State.show_i (s : State) (g : Grid) : (s.show g).i = s.i := rfl
@[simp] theorem State.show_pc (s : State) (g : Grid) : (s.show g).pc = pcPlus s.pc 2 := rfl
@[simp] theorem State.show_sp (s : State) (g : Grid) : (s.show g).sp = s.sp := rfl
@[simp] theorem State.show_stack (s : State) (g : Grid) : (s.show g).stack = s.stack := rfl
@[simp] theorem State.show_dt (s : State) (g : Grid) : (s.show g).dt = s.dt := rfl
@[simp] theorem State.show_st (s : State) (g : Grid) : (s.show g).st = s.st := rfl
@[simp] theorem State.show_key (s : State) (g : Grid) : (s.show g).key = s.key := rfl
@[simp] theorem State.show_flags (s : State) (g : Grid) : (s.show g).flags = s.flags := rfl
@[simp] theorem State.show_mode (s : State) (g : Grid) : (s.show g).mode = s.mode := rfl
@[simp] theorem State.show_fb (s : State) (g : Grid) : (s.show g).fb = g := rfl
@[simp] theorem State.show_dirty (s : State) (g : Grid) : (s.show g).dirty = true := rfl
@[simp] theorem State.show_exit (s : State) (g : Grid) : (s.show g).exit = s.exit := rfl
@[simp] theorem State.show_waiting (s : State) (g : Grid) : (s.show g).waiting = s.waiting := rfl
@[simp] theorem State.show_err (s : State) (g : Grid) : (s.show g).err = s.err := rfl
@[simp] theorem State.show_mem (s : State) (g : Grid) : (s.show g).mem = s.mem := rfl
@[simp] theorem State.show_cfg (s : State) (g : Grid) : (s.show g).cfg = s.cfg := rfl
@[simp] theorem State.show_rndIx (s : State) (g : Grid) : (s.show g).rndIx = s.rndIx := rfl
@[simp] theorem State.show_readV (s : State) (g : Grid) (q : RegIx) : (s.show g).readV q = s.readV q := rfl
@[simp] theorem State.show_readByte (s : State) (g : Grid) (q : Nat) : (s.show g).readByte q = s.readByte q := rfl
@[simp] theorem State.show_pixelAt (s : State) (g : Grid) (p q : Nat) : (s.show g).pixelAt p q = pixel g p q := rfl

/-! ### `tick` -/

@[simp] theorem State.tick_v (s : State) : (s.tick).v = s.v := rfl
@[simp] theorem State.tick_i (s : State) : (s.tick).i = s.i := rfl
@[simp] theorem State.tick_pc (s : State) : (s.tick).pc = s.pc := rfl
@[simp] theorem State.tick_sp (s : State) : (s.tick).sp = s.sp := rfl
@[simp] theorem State.tick_stack (s : State) : (s.tick).stack = s.stack := rfl
@[simp] theorem State.tick_dt (s : State) : (s.tick).dt = tickTimer s.dt := rfl
@[simp] theorem State.tick_st (s : State) : (s.tick).st = tickTimer s.st := rfl
@[simp] theorem State.tick_key (s : State) : (s.tick).key = s.key := rfl
@[simp] theorem State.tick_flags (s : State) : (s.tick).flags = s.flags := rfl
@[simp] theorem State.tick_mode (s : State) : (s.tick).mode = s.mode := rfl
@[simp] theorem State.tick_fb (s : State) : (s.tick).fb = s.fb := rfl
@[simp] theorem State.tick_dirty (s : State) : (s.tick).dirty = s.dirty := rfl
@[simp] theorem State.tick_exit (s : State) : (s.tick).exit = s.exit := rfl
@[simp] theorem State.tick_waiting (s : State) : (s.tick).waiting = s.waiting := rfl
@[simp] theorem State.tick_err (s : State) : (s.tick).err = s.err := rfl
@[simp] theorem State.tick_mem (s : State) : (s.tick).mem = s.mem := rfl
@[simp] theorem State.tick_cfg (s : State) : (s.tick).cfg = s.cfg := rfl
@[simp] theorem State.tick_rndIx (s : State) : (s.tick).rndIx = s.rndIx := rfl
@[simp] theorem State.tick_readV (s : State) (q : RegIx) : (s.tick).readV q = s.readV q := rfl
@[simp] theorem State.tick_readByte (s : State) (q : Nat) : (s.tick).readByte q = s.readByte q := rfl
@[simp] theorem State.tick_pixelAt (s : State) (p q : Nat) : (s.tick).pixelAt p q = s.pixelAt p q := rfl

/-! ### `setKeys` -/

@[simp] theorem State.setKeys_v (s : State) (k : Vector Bool 16) : (s.setKeys k).v = s.v := rfl
@[simp] theorem State.setKeys_i (s : State) (k : Vector Bool 16) : (s.setKeys k).i = s.i := rfl
@[simp] theorem State.setKeys_pc (s : State) (k : Vector Bool 16) : (s.setKeys k).pc = s.pc := rfl
@[simp] theorem State.setKeys_sp (s : State) (k : Vector Bool 16) : (s.setKeys k).sp = s.sp := rfl
@[simp] theorem State.setKeys_stack (s : State) (k : Vector Bool 16) : (s.setKeys k).stack = s.stack := rfl
@[simp] theorem State.setKeys_dt (s : State) (k : Vector Bool 16) : (s.setKeys k).dt = s.dt := rfl
@[simp] theorem State.setKeys_st (s : State) (k : Vector Bool 16) : (s.setKeys k).st = s.st := rfl
@[simp] theorem State.setKeys_key (s : State) (k : Vector Bool 16) : (s.setKeys k).key = k := rfl
@[simp] theorem State.setKeys_flags (s : State) (k : Vector Bool 16) : (s.setKeys k).flags = s.flags := rfl
@[simp] theorem State.setKeys_mode (s : State) (k : Vector Bool 16) : (s.setKeys k).mode = s.mode := rfl
@[simp] theorem State.setKeys_fb (s : State) (k : Vector Bool 16) : (s.setKeys k).fb = s.fb := rfl
@[simp] theorem State.setKeys_dirty (s : State) (k : Vector Bool 16) : (s.setKeys k).dirty = s.dirty := rfl
@[simp] theorem State.setKeys_exit (s : State) (k : Vector Bool 16) : (s.setKeys k).exit = s.exit := rfl
@[simp] theorem State.setKeys_waiting (s : State) (k : Vector Bool 16) : (s.setKeys k).waiting = s.waiting := rfl
@[simp] theorem State.setKeys_err (s : State) (k : Vector Bool 16) : (s.setKeys k).err = s.err := rfl
@[simp] theorem State.setKeys_mem (s : State) (k : Vector Bool 16) : (s.setKeys k).mem = s.mem := rfl
@[simp] theorem State.setKeys_cfg (s : State) (k : Vector Bool 16) : (s.setKeys k).cfg = s.cfg := rfl
@[simp] theorem State.setKeys_rndIx (s : State) (k : Vector Bool 16) : (s.setKeys k).rndIx = s.rndIx := rfl
@[simp] theorem State.setKeys_readV (s : State) (k : Vector Bool 16) (q : RegIx) : (s.setKeys k).readV q = s.readV q := rfl
@[simp] theorem State.setKeys_readByte (s : State) (k : Vector Bool 16) (q : Nat) : (s.setKeys k).readByte q = s.readByte q := rfl
@[simp] theorem State.setKeys_pixelAt (s : State) (k : Vector Bool 16) (p q : Nat) : (s.setKeys k).pixelAt p q = s.pixelAt p q := rfl

/-! ### `clearDirty` -/

@[simp] theorem State.clearDirty_v (s : State) : (s.clearDirty).v = s.v := rfl
@[simp] theorem State.clearDirty_i (s : State) : (s.clearDirty).i = s.i := rfl
@[simp] theorem State.clearDirty_pc (s : State) : (s.clearDirty).pc = s.pc := rfl
@[simp] theorem State.clearDirty_sp (s : State) : (s.clearDirty).sp = s.sp := rfl
@[simp] theorem State.clearDirty_stack (s : State) : (s.clearDirty).stack = s.stack := rfl
@[simp] theorem State.clearDirty_dt (s : State) : (s.clearDirty).dt = s.dt := rfl
@[simp] theorem State.clearDirty_st (s : State) : (s.clearDirty).st = s.st := rfl
@[simp] theorem State.clearDirty_key (s : State) : (s.clearDirty).key = s.key := rfl
@[simp] theorem State.clearDirty_flags (s : State) : (s.clearDirty).flags = s.flags := rfl
@[simp] theorem State.clearDirty_mode (s : State) : (s.clearDirty).mode = s.mode := rfl
@[simp] theorem State.clearDirty_fb (s : State) : (s.clearDirty).fb = s.fb := rfl
@[simp] theorem State.clearDirty_dirty (s : State) : (s.clearDirty).dirty = false := rfl
@[simp] theorem State.clearDirty_exit (s : State) : (s.clearDirty).exit = s.exit := rfl
@[simp] theorem State.clearDirty_waiting (s : State) : (s.clearDirty).waiting = s.waiting := rfl
@[simp] theorem State.clearDirty_err (s : State) : (s.clearDirty).err = s.err := rfl
@[simp] theorem State.clearDirty_mem (s : State) : (s.clearDirty).mem = s.mem := rfl
@[simp] theorem State.clearDirty_cfg (s : State) : (s.clearDirty).cfg = s.cfg := rfl
@[simp] theorem State.clearDirty_rndIx (s : State) : (s.clearDirty).rndIx = s.rndIx := rfl
@[simp] theorem State.clearDirty_readV (s : State) (q : RegIx) : (s.clearDirty).readV q = s.readV q := rfl
@[simp] theorem State.clearDirty_readByte (s : State) (q : Nat) : (s.clearDirty).readByte q = s.readByte q := rfl
@[simp] theorem State.clearDirty_pixelAt (s : State) (p q : Nat) : (s.clearDirty).pixelAt p q = s.pixelAt p q := rfl

/-! ### `requestExit` -/

@[simp] theorem State.requestExit_v (s : State) : (s.requestExit).v = s.v := rfl
@[simp] theorem State.requestExit_i (s : State) : (s.requestExit).i = s.i := rfl
@[simp] theorem State.requestExit_pc (s : State) : (s.requestExit).pc = s.pc := rfl
@[simp] theorem State.requestExit_sp (s : State) : (s.requestExit).sp = s.sp := rfl
@[simp] theorem State.requestExit_stack (s : State) : (s.requestExit).stack = s.stack := rfl
@[simp] theorem State.requestExit_dt (s : State) : (s.requestExit).dt = s.dt := rfl
@[simp] theorem State.requestExit_st (s : State) : (s.requestExit).st = s.st := rfl
@[simp] theorem State.requestExit_key (s : State) : (s.requestExit).key = s.key := rfl
@[simp] theorem State.requestExit_flags (s : State) : (s.requestExit).flags = s.flags := rfl
@[simp] theorem State.requestExit_mode (s : State) : (s.requestExit).mode = s.mode := rfl
@[simp] theorem State.requestExit_fb (s : State) : (s.requestExit).fb = s.fb := rfl
@[simp] theorem State.requestExit_dirty (s : State) : (s.requestExit).dirty = s.dirty := rfl
@[simp] theorem State.requestExit_exit (s : State) : (s.requestExit).exit = true := rfl
@[simp] theorem State.requestExit_waiting (s : State) : (s.requestExit).waiting = s.waiting := rfl
@[simp] theorem State.requestExit_err (s : State) : (s.requestExit).err = s.err := rfl
@[simp] theorem State.requestExit_mem (s : State) : (s.requestExit).mem = s.mem := rfl
@[simp] theorem State.requestExit_cfg (s : State) : (s.requestExit).cfg = s.cfg := rfl
@[simp] theorem State.requestExit_rndIx (s : State) : (s.requestExit).rndIx = s.rndIx := rfl
@[simp] theorem State.requestExit_readV (s : State) (q : RegIx) : (s.requestExit).readV q = s.readV q := rfl
@[simp] theorem State.requestExit_readByte (s : State) (q : Nat) : (s.requestExit).readByte q = s.readByte q := rfl
@[simp] theorem State.requestExit_pixelAt (s : State) (p q : Nat) : (s.requestExit).pixelAt p q = s.pixelAt p q := rfl

end Sys2Proof.Machine
end

