-- ==== Sys2Proof/Laws/Memory.lean ====
section
/-! SUPPORT. Memory: what reads as what after a write, the canonical form is kept, and equal reads are equal
memories. -/

namespace Sys2Proof.Machine

variable {img : Nat → Byte}

theorem Memory.cellAt_put (m : Memory) (a b : Nat) (w : Byte) :
    Memory.cellAt (Memory.put m a w) b = if b = a then some w else Memory.cellAt m b := by
  induction m with
  | nil => simp [Memory.put, Memory.cellAt]
  | cons c m ih =>
    obtain ⟨k, u⟩ := c
    simp only [Memory.put]
    split
    · simp [Memory.cellAt]
    · split
      · simp only [Memory.cellAt]; split <;> simp_all
      · simp only [Memory.cellAt, ih]; split <;> split <;> simp_all

theorem Memory.cellAt_clear (m : Memory) (a b : Nat) :
    Memory.cellAt (Memory.clear m a) b = if b = a then none else Memory.cellAt m b := by
  induction m with
  | nil => simp [Memory.clear, Memory.cellAt]
  | cons c m ih =>
    obtain ⟨k, u⟩ := c
    simp only [Memory.clear, List.filter_cons] at ih ⊢
    split
    · simp_all [Memory.cellAt]
      grind
    · simp_all [Memory.cellAt]

/-- A read after a write: the written value at the same address, the old one elsewhere. -/
theorem Memory.read_write (m : Memory) (a b : Nat) (w : Byte) :
    Memory.read img (Memory.write img m a w) b = if b = a then w else Memory.read img m b := by
  unfold Memory.read Memory.write
  split <;> simp only [Memory.cellAt_clear, Memory.cellAt_put] <;> split <;> simp_all

theorem Memory.wf_iff (m : Memory) :
    Memory.wf img m = true ↔
      m.Pairwise (fun c d => c.1 < d.1) ∧ ∀ c ∈ m, c.1 < memSize ∧ c.2 ≠ img c.1 := by
  simp [Memory.wf]

theorem Memory.wf_cons (c : Host.Cell) (m : Memory) :
    Memory.wf img (c :: m) = true ↔
      (∀ d ∈ m, c.1 < d.1) ∧ c.1 < memSize ∧ c.2 ≠ img c.1 ∧ Memory.wf img m = true := by
  simp only [Memory.wf_iff, List.pairwise_cons, List.mem_cons, forall_eq_or_imp]
  tauto

theorem Memory.mem_put {m : Memory} {a : Nat} {w : Byte} {c : Host.Cell} (h : c ∈ Memory.put m a w) :
    c = (a, w) ∨ c ∈ m := by
  induction m with
  | nil => simpa [Memory.put] using h
  | cons d m ih =>
    obtain ⟨k, u⟩ := d
    simp only [Memory.put] at h
    split at h
    · simpa using h
    · split at h <;> simp at h ⊢ <;> tauto

/-- Listing a value other than the image's keeps the canonical form. -/
theorem Memory.put_wf {m : Memory} {a : Nat} {w : Byte} (hm : Memory.wf img m = true) (ha : a < memSize)
    (hw : w ≠ img a) : Memory.wf img (Memory.put m a w) = true := by
  induction m with
  | nil => simp [Memory.put, Memory.wf_iff, ha, hw]
  | cons c m ih =>
    obtain ⟨k, u⟩ := c
    obtain ⟨hlt, hk, hu, hrest⟩ := (Memory.wf_cons _ _).mp hm
    simp only [Memory.put]
    split
    · next h =>
      refine (Memory.wf_cons _ _).mpr ⟨?_, ha, hw, hm⟩
      intro d hd
      rcases List.mem_cons.mp hd with rfl | hd
      · exact h
      · exact lt_trans h (hlt d hd)
    · split
      · next h => subst h; exact (Memory.wf_cons _ _).mpr ⟨hlt, hk, hw, hrest⟩
      · refine (Memory.wf_cons _ _).mpr ⟨?_, hk, hu, ih hrest⟩
        intro d hd
        rcases Memory.mem_put hd with rfl | hd
        · simp; omega
        · exact hlt d hd

theorem Memory.clear_wf {m : Memory} (a : Nat) (hm : Memory.wf img m = true) :
    Memory.wf img (Memory.clear m a) = true := by
  rw [Memory.wf_iff] at hm ⊢
  exact ⟨hm.1.filter _, fun c hc => hm.2 c (List.mem_filter.mp hc).1⟩

/-- Every write keeps the canonical form. -/
theorem Memory.write_wf {m : Memory} {a : Nat} (w : Byte) (hm : Memory.wf img m = true) (ha : a < memSize) :
    Memory.wf img (Memory.write img m a w) = true := by
  unfold Memory.write
  split
  · exact Memory.clear_wf a hm
  · next h => exact Memory.put_wf hm ha h

theorem Memory.cellAt_mem {m : Memory} {a : Nat} {w : Byte} (h : Memory.cellAt m a = some w) : (a, w) ∈ m := by
  induction m with
  | nil => simp [Memory.cellAt] at h
  | cons c m ih =>
    obtain ⟨k, u⟩ := c
    simp only [Memory.cellAt] at h
    split at h <;> simp_all

theorem Memory.cellAt_eq_none_of_lt {m : Memory} {a : Nat} (h : ∀ d ∈ m, a < d.1) : Memory.cellAt m a = none := by
  cases hc : Memory.cellAt m a with
  | none => rfl
  | some w => exact absurd (h _ (Memory.cellAt_mem hc)) (lt_irrefl _)

/-- What a canonical memory lists for an address is there exactly when the read differs from the image. -/
theorem Memory.cellAt_of_read {m : Memory} (hm : Memory.wf img m = true) (a : Nat) :
    Memory.cellAt m a = if Memory.read img m a = img a then none else some (Memory.read img m a) := by
  cases hc : Memory.cellAt m a with
  | none => simp [Memory.read, hc]
  | some w =>
    have := ((Memory.wf_iff m).mp hm).2 _ (Memory.cellAt_mem hc)
    simp_all [Memory.read]

theorem Memory.eq_of_cellAt {m n : Memory} (hm : Memory.wf img m = true) (hn : Memory.wf img n = true)
    (h : ∀ a, Memory.cellAt m a = Memory.cellAt n a) : m = n := by
  induction m generalizing n with
  | nil =>
    cases n with
    | nil => rfl
    | cons d n => have := h d.1; simp [Memory.cellAt] at this
  | cons c m ih =>
    cases n with
    | nil => have := h c.1; simp [Memory.cellAt] at this
    | cons d n =>
      obtain ⟨k, u⟩ := c
      obtain ⟨l, v⟩ := d
      obtain ⟨hc, -, -, hm'⟩ := (Memory.wf_cons _ _).mp hm
      obtain ⟨hd, -, -, hn'⟩ := (Memory.wf_cons _ _).mp hn
      have head : k = l ∧ u = v := by
        have h1 := h k
        have h2 := h l
        simp only [Memory.cellAt, if_true] at h1 h2
        by_cases hkl : k = l
        · simp_all
        · rw [if_neg hkl] at h1
          rw [if_neg (Ne.symm hkl)] at h2
          have := hd _ (Memory.cellAt_mem h1.symm)
          have := hc _ (Memory.cellAt_mem h2)
          simp at *; omega
      obtain ⟨rfl, rfl⟩ := head
      congr 1
      refine ih hm' hn' fun a => ?_
      have ha := h a
      simp only [Memory.cellAt] at ha
      by_cases hak : a = k
      · subst hak
        rw [Memory.cellAt_eq_none_of_lt hc, Memory.cellAt_eq_none_of_lt hd]
      · simpa [hak] using ha

/-- Equal memories are equal lists: two canonical memories that read alike are the same. -/
theorem Memory.ext_of_read {m n : Memory} (hm : Memory.wf img m = true) (hn : Memory.wf img n = true)
    (h : ∀ a < memSize, Memory.read img m a = Memory.read img n a) : m = n := by
  refine Memory.eq_of_cellAt hm hn fun a => ?_
  by_cases ha : a < memSize
  · rw [Memory.cellAt_of_read hm, Memory.cellAt_of_read hn, h a ha]
  · have out : ∀ q : Memory, Memory.wf img q = true → Memory.cellAt q a = none := by
      intro q hq
      cases hc : Memory.cellAt q a with
      | none => rfl
      | some w => exact absurd (((Memory.wf_iff q).mp hq).2 _ (Memory.cellAt_mem hc)).1 ha
    rw [out m hm, out n hn]

end Sys2Proof.Machine
end

