-- ==== Sys2Proof/Laws/Ops.lean ====
section
/-! SUPPORT. What each shared operation over registers, memory, stack and flags store does, said once. -/

namespace Sys2Proof.Machine

/-! ### Registers -/

theorem State.readV_writeV (s : State) (r q : RegIx) (b : Byte) :
    (s.writeV r b).readV q = if q = r then b else s.readV q := by
  simp only [State.readV, State.writeV_v]
  by_cases h : q = r
  · subst h; simp
  · have : r.val ≠ q.val := fun e => h (Fin.ext e.symm)
    simp [h, Vector.getElem_set_ne _ _ this]

@[simp] theorem State.readV_writeV_same (s : State) (r : RegIx) (b : Byte) : (s.writeV r b).readV r = b := by
  simp [State.readV_writeV]

theorem State.readV_writeV_ne (s : State) {r q : RegIx} (b : Byte) (h : q ≠ r) : (s.writeV r b).readV q = s.readV q := by
  simp [State.readV_writeV, h]

/-- A register file is determined by what its registers read as. -/
theorem State.v_ext {s t : State} (h : ∀ r, t.readV r = s.readV r) : t.v = s.v :=
  Vector.ext fun k hk => h ⟨k, hk⟩

/-! ### Memory -/

theorem State.readByte_writeByte (s : State) (a b : Nat) (w : Byte) :
    (s.writeByte a w).readByte b = if b % memSize = a % memSize then w else s.readByte b := by
  simp [State.readByte, Memory.read_write]

theorem State.readByte_mod (s : State) (a : Nat) : s.readByte (a % memSize) = s.readByte a := by
  simp [State.readByte]

theorem State.writeByte_wf {s : State} (a : Nat) (w : Byte) (h : Memory.wf (image s.cfg) s.mem = true) :
    Memory.wf (image s.cfg) (s.writeByte a w).mem = true :=
  Memory.write_wf w h (Nat.mod_lt _ (by decide))

/-- A memory that lists nothing reads as the init image. -/
theorem State.readByte_of_mem_nil {s : State} (h : s.mem = []) (a : Nat) : s.readByte a = image s.cfg (a % memSize) := by
  simp [State.readByte, Memory.read, h, Memory.cellAt]

/-- Two states that read alike fetch the same word at the same address. -/
theorem fetchWord_congr {s t : State} (hpc : t.pc = s.pc) (hm : ∀ a, t.readByte a = s.readByte a) :
    fetchWord t = fetchWord s := by
  simp [fetchWord, hpc, hm]

/-! ### Stores at `I` -/

/-- Storing a list changes memory alone. -/
theorem State.storeFold_eq (s t : State) (l : List (Byte × Nat)) :
    l.foldl (fun u p => u.writeByte (s.dataAddr p.2) p.1) t =
      { t with mem := (l.foldl (fun u p => u.writeByte (s.dataAddr p.2) p.1) t).mem } := by
  induction l generalizing t with
  | nil => rfl
  | cons p l ih => rw [List.foldl_cons, ih]; rfl

theorem State.storeAtI_eq (s : State) (l : List Byte) : s.storeAtI l = { s with mem := (s.storeAtI l).mem } :=
  State.storeFold_eq s s _

theorem State.storeFold_wf (s : State) (l : List (Byte × Nat)) (t : State)
    (h : Memory.wf (image t.cfg) t.mem = true) :
    Memory.wf (image t.cfg) (l.foldl (fun u p => u.writeByte (s.dataAddr p.2) p.1) t).mem = true := by
  induction l generalizing t with
  | nil => exact h
  | cons p l ih => exact ih _ (State.writeByte_wf _ _ h)

theorem State.storeAtI_wf {s : State} (l : List Byte) (h : Memory.wf (image s.cfg) s.mem = true) :
    Memory.wf (image s.cfg) (s.storeAtI l).mem = true :=
  State.storeFold_wf s _ s h

theorem State.dataAddr_lt (s : State) (k : Nat) : s.dataAddr k < memSize := Nat.mod_lt _ (by decide)

/-- Distinct offsets below 4096 are distinct addresses. -/
theorem State.dataAddr_inj (s : State) {j k : Nat} (hj : j < memSize) (hk : k < memSize)
    (h : s.dataAddr j = s.dataAddr k) : j = k := by
  simp only [State.dataAddr, memSize] at *; omega

theorem State.readByte_storeFold_other (s : State) (l : List Byte) (n : Nat) (t : State) (a : Nat)
    (h : ∀ k < l.length, a % memSize ≠ s.dataAddr (n + k)) :
    ((l.zipIdx n).foldl (fun u p => u.writeByte (s.dataAddr p.2) p.1) t).readByte a = t.readByte a := by
  induction l generalizing n t with
  | nil => rfl
  | cons b l ih =>
    rw [List.zipIdx_cons, List.foldl_cons, ih]
    · rw [State.readByte_writeByte, if_neg]
      simpa [Nat.mod_eq_of_lt (State.dataAddr_lt s n)] using h 0 (by simp)
    · intro k hk
      have := h (k + 1) (by simpa using hk)
      rwa [show n + 1 + k = n + (k + 1) by omega]

theorem State.readByte_storeFold_hit (s : State) (l : List Byte) (n : Nat) (t : State) (hn : n + l.length ≤ memSize)
    (k : Nat) (hk : k < l.length) :
    ((l.zipIdx n).foldl (fun u p => u.writeByte (s.dataAddr p.2) p.1) t).readByte (s.dataAddr (n + k)) = l[k] := by
  induction l generalizing n t k with
  | nil => simp at hk
  | cons b l ih =>
    rw [List.zipIdx_cons, List.foldl_cons]
    cases k with
    | zero =>
      rw [State.readByte_storeFold_other]
      · simp [State.readByte_writeByte]
      · intro j hj e
        rw [Nat.mod_eq_of_lt (State.dataAddr_lt s _)] at e
        have := State.dataAddr_inj s (by simp at hn; omega) (by simp at hn; omega) e
        omega
    | succ k =>
      have := ih (n + 1) (t.writeByte (s.dataAddr n) b) (by simp at hn; omega) k (by simpa using hk)
      rw [show n + 1 + k = n + (k + 1) by omega] at this
      simpa using this

/-- What a store of a list at `I` leaves alone: every byte outside its addresses. -/
theorem State.readByte_storeAtI_other (s : State) (l : List Byte) (a : Nat)
    (h : ∀ k < l.length, a % memSize ≠ s.dataAddr k) : (s.storeAtI l).readByte a = s.readByte a :=
  State.readByte_storeFold_other s l 0 s a (by simpa using h)

/-- What a store of a list at `I` puts at the address of its `k`-th byte. -/
theorem State.readByte_storeAtI_hit (s : State) (l : List Byte) (hl : l.length ≤ memSize) (k : Nat) (hk : k < l.length) :
    (s.storeAtI l).readByte (s.dataAddr k) = l[k] := by
  simpa [State.storeAtI] using State.readByte_storeFold_hit s l 0 s (by simpa using hl) k hk

/-! ### Lists of registers -/

theorem regsUpTo_length (x : RegIx) : (regsUpTo x).length = x.val + 1 := by revert x; decide

theorem regsUpTo_getElem (x : RegIx) (k : Nat) (hk : k < (regsUpTo x).length) : (regsUpTo x)[k].val = k := by
  have : ∀ x : RegIx, ∀ k : Fin 16, ∀ hk : k.val < (regsUpTo x).length, (regsUpTo x)[k.val].val = k.val := by decide
  exact this x ⟨k, by rw [regsUpTo_length] at hk; omega⟩ hk

theorem mem_regsUpTo {x r : RegIx} : r ∈ regsUpTo x ↔ r ≤ x := by
  simp [regsUpTo, allIx]

/-- Writing a list of registers changes registers alone. -/
theorem State.writeFold_eq (f : RegIx → Byte) (l : List RegIx) (t : State) :
    l.foldl (fun u r => u.writeV r (f r)) t = { t with v := (l.foldl (fun u r => u.writeV r (f r)) t).v } := by
  induction l generalizing t with
  | nil => rfl
  | cons p l ih => rw [List.foldl_cons, ih]; rfl

/-- Writing `f r` to every register `r` of a list. -/
theorem State.readV_writeFold (f : RegIx → Byte) (l : List RegIx) (t : State) (q : RegIx) :
    (l.foldl (fun u r => u.writeV r (f r)) t).readV q = if q ∈ l then f q else t.readV q := by
  induction l generalizing t with
  | nil => simp
  | cons p l ih =>
    rw [List.foldl_cons, ih, State.readV_writeV]
    by_cases h : q ∈ l <;> by_cases h' : q = p <;> simp_all

/-! ### The flags store -/

theorem saveFold_getElem (f : Fin 8 → Byte) (l : List (Fin 8)) (v : Vector Byte 8) (k : Fin 8) :
    (l.foldl (fun w (j : Fin 8) => w.set j (f j)) v)[k] = if k ∈ l then f k else v[k] := by
  induction l generalizing v with
  | nil => simp
  | cons j l ih =>
    rw [List.foldl_cons, ih]
    by_cases h : k ∈ l
    · simp [h]
    · by_cases h' : k = j
      · subst h'; simp
      · have : j.val ≠ k.val := fun e => h' (Fin.ext e.symm)
        simp [h, h', Vector.getElem_set_ne _ _ this]

/-- `LD R, Vx` copies `V[k]` to slot `k`, for each of the eight slots. -/
theorem State.saveToFlags_slot (s : State) (k : Fin 8) : s.saveToFlags.flags[k] = s.readV (slotReg k) := by
  simp only [State.saveToFlags, saveFold_getElem, flagSlots, List.mem_finRange, if_true]

/-- `LD Vx, R` loads the eight registers and changes registers alone. -/
theorem State.loadFromFlags_eq (s : State) : s.loadFromFlags = { s with v := s.loadFromFlags.v } := rfl

theorem State.loadFromFlags_readV (s : State) (r : RegIx) :
    s.loadFromFlags.readV r = if h : r.val < 8 then s.flags[r.val] else s.readV r := by
  have hslot : ∀ k : Fin 8, (slotReg k).val = k.val := fun k => rfl
  have : s.loadFromFlags = (flagSlots.map slotReg).foldl
      (fun u q => u.writeV q (if h : q.val < 8 then s.flags[q.val] else 0)) s := by
    simp only [State.loadFromFlags, List.foldl_map]
    congr 1
    funext t k
    have : (slotReg k).val < 8 := k.isLt
    simp [hslot]
  rw [this, State.readV_writeFold]
  have hm : r ∈ flagSlots.map slotReg ↔ r.val < 8 := by revert r; decide
  by_cases h : r.val < 8
  · simp [hm, h]
  · simp [hm, h]

/-! ### Keys -/

/-- The captured key is the smallest one that is down (R162). -/
theorem State.firstKey_eq_some {s : State} {k : RegIx} :
    s.firstKey = some k ↔ s.keyDown k = true ∧ ∀ j < k, s.keyDown j = false := by
  have key : ∀ (p : RegIx → Bool) (k : RegIx),
      allIx.find? p = some k ↔ p k = true ∧ ∀ j < k, p j = false := by
    intro p k
    rw [allIx, List.find?_eq_some_iff_getElem]
    constructor
    · rintro ⟨hp, i, hi, hik, hall⟩
      simp only [List.getElem_finRange] at hik
      refine ⟨hp, fun j hj => ?_⟩
      have hij : j.val < i := by subst hik; exact hj
      have := hall j.val hij
      simpa using this
    · rintro ⟨hp, hall⟩
      refine ⟨hp, k.val, by simp, by simp, fun j hj => ?_⟩
      have := hall ⟨j, lt_trans hj k.isLt⟩ hj
      simpa using this
  exact key _ _

theorem State.firstKey_eq_none {s : State} : s.firstKey = none ↔ ∀ k, s.keyDown k = false := by
  simp [State.firstKey, allIx, List.find?_eq_none]

end Sys2Proof.Machine
end

