-- ==== Sys2Proof/Laws/Display.lean ====
section
/-! SUPPORT. The framebuffer: which cell every operation turns on or off, cell by cell. -/

namespace Sys2Proof.Machine

/-! ### Cells -/

@[simp] theorem pixel_blank (x y : Nat) : pixel blank x y = false := by
  simp only [pixel, blank, rowAt, Vector.getElem?_replicate]
  by_cases h : y < 64 <;> simp [h]

theorem pixel_of_row_ge (g : Grid) (x : Nat) {y : Nat} (h : 64 ≤ y) : pixel g x y = false := by
  simp [pixel, rowAt, h]

theorem pixel_of_col_ge (g : Grid) {x : Nat} (y : Nat) (h : 128 ≤ x) : pixel g x y = false :=
  BitVec.getLsbD_of_ge _ _ h

/-- Toggling flips one cell of the grid and no other. -/
theorem pixel_toggle (g : Grid) {x y : Nat} (hx : x < 128) (hy : y < 64) (px py : Nat) :
    pixel (toggle g x y) px py = (pixel g px py ^^ (decide (px = x) && decide (py = y))) := by
  simp only [pixel, toggle, rowAt, Vector.getElem?_setIfInBounds]
  by_cases h : y = py
  · subst h
    simp only [if_true, hy, Option.getD_some, BitVec.getLsbD_xor, BitVec.getLsbD_shiftLeft, decide_true, Bool.and_true]
    congr 1
    by_cases hp : px = x
    · subst hp; simp [hx]
    · by_cases hlt : px < x
      · simp [hp, hlt]
      · simp [hp]
        intros
        omega
  · have h' : ¬ py = y := fun e => h e.symm
    simp [h, h']

theorem pixel_gridOfRows (h : Nat) (row : Nat → BitVec 128) (x y : Nat) :
    pixel (gridOfRows h row) x y = (decide (y < h) && decide (y < 64) && (row y).getLsbD x) := by
  simp only [pixel, gridOfRows, rowAt, Vector.getElem?_ofFn]
  by_cases h64 : y < 64 <;> by_cases hh : y < h <;> simp [h64, hh]

theorem rowMask_getLsbD {w : Nat} (hw : w ≤ 128) (x : Nat) : (rowMask w).getLsbD x = decide (x < w) := by
  simp only [rowMask, BitVec.getLsbD_ushiftRight, BitVec.getLsbD_allOnes, decide_eq_decide]
  omega

/-! ### Geometry -/

theorem State.width_le (s : State) : s.width ≤ 128 := by
  unfold State.width; split
  · exact le_refl _
  · cases s.mode <;> decide

theorem State.height_le (s : State) : s.height ≤ 64 := by
  unfold State.height; split
  · exact le_refl _
  · cases s.mode <;> decide

/-! ### Scrolling -/

theorem pixel_scrollDown {w h : Nat} (hw : w ≤ 128) (hh : h ≤ 64) (n : Nat) (g : Grid) (x y : Nat) :
    pixel (scrollDown w h n g) x y = (decide (x < w) && decide (y < h) && decide (n ≤ y) && pixel g x (y - n)) := by
  rw [scrollDown, pixel_gridOfRows]
  by_cases hy : y < h
  · have : y < 64 := lt_of_lt_of_le hy hh
    by_cases hn : n ≤ y <;> simp [hy, this, hn, rowMask_getLsbD hw, pixel, Bool.and_comm]
  · simp [hy]

theorem pixel_scrollRight {w h : Nat} (hw : w ≤ 128) (hh : h ≤ 64) (k : Nat) (g : Grid) (x y : Nat) :
    pixel (scrollRight w h k g) x y = (decide (x < w) && decide (y < h) && decide (k ≤ x) && pixel g (x - k) y) := by
  rw [scrollRight, pixel_gridOfRows, BitVec.getLsbD_and, rowMask_getLsbD hw, BitVec.getLsbD_shiftLeft, pixel]
  have hlt : decide (x < k) = !decide (k ≤ x) := by rw [Bool.eq_iff_iff]; simp
  by_cases hy : y < h
  · have h64 : y < 64 := lt_of_lt_of_le hy hh
    by_cases hx : x < w
    · have h128 : x < 128 := lt_of_lt_of_le hx hw
      simp only [hy, h64, hx, h128, hlt, decide_true, Bool.not_not, Bool.true_and, Bool.and_true]
    · simp [hx]
  · simp [hy]

theorem pixel_scrollLeft {w h : Nat} (hw : w ≤ 128) (hh : h ≤ 64) (k : Nat) (g : Grid) (x y : Nat) :
    pixel (scrollLeft w h k g) x y = (decide (x + k < w) && decide (y < h) && pixel g (x + k) y) := by
  rw [scrollLeft, pixel_gridOfRows]
  by_cases hy : y < h
  · have h64 : y < 64 := lt_of_lt_of_le hy hh
    simp [hy, h64, rowMask_getLsbD hw, pixel, Bool.and_comm, Nat.add_comm]
  · simp [hy]

/-! ### Drawing -/

/-- The cells that plotting the logical pixel (`lx`, `ly`) toggles (R149, R148). -/
def touches (dbl : Bool) (m : Mode) (lx ly px py : Nat) : Bool :=
  decide (lx < logicalWidth m) && decide (ly < logicalHeight m) &&
    (if dbl then decide (px / 2 = lx) && decide (py / 2 = ly) else decide (px = lx) && decide (py = ly))

/-- The cell whose old value plotting a logical pixel reports (R148: the top-left one of a block). -/
def sampled (dbl : Bool) (lx ly : Nat) : Nat × Nat := if dbl then (2 * lx, 2 * ly) else (lx, ly)

theorem pixel_toggleBlock (g : Grid) {px py : Nat} (hx : px + 1 < 128) (hy : py + 1 < 64) (hpx : px % 2 = 0)
    (hpy : py % 2 = 0) (a b : Nat) :
    pixel (toggleBlock g px py) a b = (pixel g a b ^^ (decide (a / 2 = px / 2) && decide (b / 2 = py / 2))) := by
  unfold toggleBlock
  rw [pixel_toggle _ hx hy, pixel_toggle _ (by omega) hy, pixel_toggle _ hx (by omega), pixel_toggle _ (by omega) (by omega)]
  have ha : decide (a / 2 = px / 2) = (decide (a = px) ^^ decide (a = px + 1)) := by
    rw [Bool.eq_iff_iff]; simp; omega
  have hb : decide (b / 2 = py / 2) = (decide (b = py) ^^ decide (b = py + 1)) := by
    rw [Bool.eq_iff_iff]; simp; omega
  rw [ha, hb]
  generalize decide (a = px) = p, decide (a = px + 1) = q, decide (b = py) = r, decide (b = py + 1) = t, pixel g a b = u
  revert p q r t u
  decide

/-- `Plot` toggles exactly the cells of its pixel. -/
theorem pixel_plot (dbl : Bool) (m : Mode) (hd : dbl = true → m = .low) (lx ly : Nat) (g : Grid) (px py : Nat) :
    pixel (plot dbl m lx ly g).1 px py = (pixel g px py ^^ touches dbl m lx ly px py) := by
  unfold plot touches
  by_cases hx : logicalWidth m ≤ lx
  · simp [hx, Nat.not_lt.mpr hx]
  by_cases hy : logicalHeight m ≤ ly
  · simp [hy, Nat.not_lt.mpr hy]
  have bw : logicalWidth m ≤ 128 := by cases m <;> decide
  have bh : logicalHeight m ≤ 64 := by cases m <;> decide
  simp only [hx, hy, or_self, if_false, Nat.lt_of_not_le hx, Nat.lt_of_not_le hy, decide_true, Bool.true_and]
  cases dbl with
  | true =>
    obtain rfl := hd rfl
    simp only [logicalWidth, logicalHeight] at hx hy
    simp only [if_true]
    rw [pixel_toggleBlock g (by omega) (by omega) (by omega) (by omega)]
    simp
  | false =>
    simp only [Bool.false_eq_true, if_false]
    exact pixel_toggle g (by omega) (by omega) px py

/-- What `Plot` returns. -/
theorem plot_snd (dbl : Bool) (m : Mode) (lx ly : Nat) (g : Grid) :
    (plot dbl m lx ly g).2 =
      (decide (lx < logicalWidth m) && decide (ly < logicalHeight m) && pixel g (sampled dbl lx ly).1 (sampled dbl lx ly).2) := by
  unfold plot sampled
  by_cases hx : logicalWidth m ≤ lx
  · simp [hx, Nat.not_lt.mpr hx]
  by_cases hy : logicalHeight m ≤ ly
  · simp [hy, Nat.not_lt.mpr hy]
  cases dbl <;> simp [hx, hy, Nat.lt_of_not_le hx, Nat.lt_of_not_le hy]

/-- The cell that another pixel of the sprite samples is not one of this pixel's. -/
theorem touches_sampled_ne (dbl : Bool) (m : Mode) {lx ly kx ky : Nat} (h : (lx, ly) ≠ (kx, ky)) :
    touches dbl m lx ly (sampled dbl kx ky).1 (sampled dbl kx ky).2 = false := by
  have : ¬(kx = lx ∧ ky = ly) := by rintro ⟨rfl, rfl⟩; exact h rfl
  unfold touches sampled
  cases dbl <;> simp <;> intros <;> omega

theorem drawFold_spec (dbl : Bool) (m : Mode) (hd : dbl = true → m = .low) (x0 y0 : Nat) (cells : List (Nat × Nat))
    (hn : cells.Nodup) (acc : Grid × Bool) :
    (∀ px py, pixel (cells.foldl (fun acc c => ((plot dbl m (x0 + c.1) (y0 + c.2) acc.1).1,
        acc.2 || (plot dbl m (x0 + c.1) (y0 + c.2) acc.1).2)) acc).1 px py =
      (pixel acc.1 px py ^^ cells.any fun c => touches dbl m (x0 + c.1) (y0 + c.2) px py)) ∧
    (cells.foldl (fun acc c => ((plot dbl m (x0 + c.1) (y0 + c.2) acc.1).1,
        acc.2 || (plot dbl m (x0 + c.1) (y0 + c.2) acc.1).2)) acc).2 =
      (acc.2 || cells.any fun c => decide (x0 + c.1 < logicalWidth m) && decide (y0 + c.2 < logicalHeight m) &&
        pixel acc.1 (sampled dbl (x0 + c.1) (y0 + c.2)).1 (sampled dbl (x0 + c.1) (y0 + c.2)).2) := by
  induction cells generalizing acc with
  | nil => simp
  | cons c cells ih =>
    obtain ⟨hc, hn'⟩ := List.nodup_cons.mp hn
    obtain ⟨ih1, ih2⟩ := ih hn' ((plot dbl m (x0 + c.1) (y0 + c.2) acc.1).1,
      acc.2 || (plot dbl m (x0 + c.1) (y0 + c.2) acc.1).2)
    have ne : ∀ e ∈ cells, (x0 + c.1, y0 + c.2) ≠ (x0 + e.1, y0 + e.2) := by
      intro e he heq
      apply hc
      have : c = e := by
        simp only [Prod.mk.injEq] at heq
        exact Prod.ext (by omega) (by omega)
      exact this ▸ he
    constructor
    · intro px py
      rw [List.foldl_cons, ih1, pixel_plot dbl m hd, List.any_cons, Bool.xor_assoc]
      congr 1
      cases hcell : touches dbl m (x0 + c.1) (y0 + c.2) px py with
      | false => simp
      | true =>
        have none : (cells.any fun e => touches dbl m (x0 + e.1) (y0 + e.2) px py) = false := by
          rw [List.any_eq_false]
          intro e he hte
          have hne := ne e he
          apply hne
          unfold touches at hcell hte
          cases dbl <;> simp at hcell hte <;> simp <;> omega
        simp [none]
    · rw [List.foldl_cons, ih2, List.any_cons, plot_snd, Bool.or_assoc]
      congr 2
      rw [Bool.eq_iff_iff]
      simp only [List.any_eq_true]
      refine exists_congr fun e => and_congr_right fun he => ?_
      rw [pixel_plot dbl m hd, touches_sampled_ne dbl m (ne e he), Bool.xor_false]

theorem mem_spriteCells {rows cols : Nat} {bit : Nat → Nat → Bool} {c r : Nat} :
    (c, r) ∈ spriteCells rows cols bit ↔ r < rows ∧ c < cols ∧ bit r c = true := by
  simp only [spriteCells, List.mem_flatMap, List.mem_range, List.mem_map, List.mem_filter, Prod.mk.injEq]
  constructor
  · rintro ⟨r', hr, c', ⟨hc, hb⟩, rfl, rfl⟩
    exact ⟨hr, hc, hb⟩
  · rintro ⟨hr, hc, hb⟩
    exact ⟨r, hr, c, ⟨hc, hb⟩, rfl, rfl⟩

theorem spriteCells_nodup (rows cols : Nat) (bit : Nat → Nat → Bool) : (spriteCells rows cols bit).Nodup := by
  unfold spriteCells
  rw [List.nodup_flatMap]
  constructor
  · intro r _
    refine ((List.nodup_range).filter _).map ?_
    intro a b h
    exact (Prod.mk.injEq _ _ _ _ ▸ h).1
  · refine List.nodup_range.imp ?_
    intro r r' hne p hp hp'
    simp only [List.mem_map] at hp hp'
    obtain ⟨_, _, rfl⟩ := hp
    obtain ⟨_, _, h⟩ := hp'
    exact hne (Prod.mk.injEq _ _ _ _ ▸ h).2.symm

/-! ### The two draw instructions, cell by cell -/

theorem State.doubled_low {s : State} (h : s.doubled = true) : s.mode = .low := by
  simp [State.doubled] at h; exact h.2

/-- Every cell of the framebuffer after a draw (R146, R148, R149): toggled when the logical pixel it belongs to is plotted. -/
theorem State.draw_pixelAt (s : State) (x y : RegIx) (rows cols : Nat) (bit : Nat → Nat → Bool) (px py : Nat) :
    (s.draw x y (spriteCells rows cols bit)).pixelAt px py = true ↔
      ¬(s.pixelAt px py = true ↔
        s.Plots x y rows cols bit (if s.doubled then px / 2 else px) (if s.doubled then py / 2 else py)) := by
  have spec := (drawFold_spec s.doubled s.mode State.doubled_low (s.drawX x) (s.drawY y) (spriteCells rows cols bit)
    (spriteCells_nodup rows cols bit) (s.fb, false)).1 px py
  have hp : ((spriteCells rows cols bit).any fun c => touches s.doubled s.mode (s.drawX x + c.1) (s.drawY y + c.2) px py) = true ↔
      s.Plots x y rows cols bit (if s.doubled then px / 2 else px) (if s.doubled then py / 2 else py) := by
    simp only [List.any_eq_true, State.Plots, Prod.exists, mem_spriteCells, touches, Bool.and_eq_true, decide_eq_true_eq]
    cases s.doubled
    · simp only [Bool.false_eq_true, if_false, Bool.and_eq_true, decide_eq_true_eq]
      simp only [State.drawX, State.drawY]
      constructor
      · rintro ⟨c, r, ⟨hr, hc, hb⟩, ⟨h1, h2⟩, rfl, rfl⟩
        exact ⟨h1, h2, r, c, hr, hc, hb, rfl, rfl⟩
      · rintro ⟨h1, h2, r, c, hr, hc, hb, rfl, rfl⟩
        exact ⟨c, r, ⟨hr, hc, hb⟩, ⟨h1, h2⟩, rfl, rfl⟩
    · simp only [if_true, Bool.and_eq_true, decide_eq_true_eq]
      simp only [State.drawX, State.drawY]
      constructor
      · rintro ⟨c, r, ⟨hr, hc, hb⟩, ⟨h1, h2⟩, e1, e2⟩
        exact ⟨e1 ▸ h1, e2 ▸ h2, r, c, hr, hc, hb, e1, e2⟩
      · rintro ⟨h1, h2, r, c, hr, hc, hb, e1, e2⟩
        exact ⟨c, r, ⟨hr, hc, hb⟩, ⟨e1 ▸ h1, e2 ▸ h2⟩, e1, e2⟩
  have : (s.draw x y (spriteCells rows cols bit)).pixelAt px py =
      (pixel s.fb px py ^^ (spriteCells rows cols bit).any fun c => touches s.doubled s.mode (s.drawX x + c.1) (s.drawY y + c.2) px py) := spec
  rw [this, ← hp, State.pixelAt]
  cases pixel s.fb px py <;> cases (List.any _ _) <;> simp

/-- The collision of a draw (R151): some plotted pixel's sampled cell was on. -/
theorem State.draw_collision (s : State) (x y : RegIx) (rows cols : Nat) (bit : Nat → Nat → Bool) :
    (s.draw x y (spriteCells rows cols bit)).readV vf = flagByte (drawCells s.doubled s.mode (s.drawX x) (s.drawY y)
      (spriteCells rows cols bit) s.fb).2 ∧
    ((drawCells s.doubled s.mode (s.drawX x) (s.drawY y) (spriteCells rows cols bit) s.fb).2 = true ↔
      ∃ lx ly, s.Plots x y rows cols bit lx ly ∧
        s.pixelAt (if s.doubled then 2 * lx else lx) (if s.doubled then 2 * ly else ly) = true) := by
  refine ⟨by simp [State.draw], ?_⟩
  have spec := (drawFold_spec s.doubled s.mode State.doubled_low (s.drawX x) (s.drawY y) (spriteCells rows cols bit)
    (spriteCells_nodup rows cols bit) (s.fb, false)).2
  rw [drawCells, spec]
  simp only [Bool.false_or, List.any_eq_true, Prod.exists, mem_spriteCells, Bool.and_eq_true, decide_eq_true_eq, State.Plots]
  have hs : ∀ lx ly, pixel s.fb (sampled s.doubled lx ly).1 (sampled s.doubled lx ly).2 =
      s.pixelAt (if s.doubled then 2 * lx else lx) (if s.doubled then 2 * ly else ly) := by
    intro lx ly; unfold sampled State.pixelAt; cases s.doubled <;> rfl
  simp only [hs, State.drawX, State.drawY]
  constructor
  · rintro ⟨c, r, ⟨hr, hc, hb⟩, ⟨h1, h2⟩, hp⟩
    exact ⟨_, _, ⟨h1, h2, r, c, hr, hc, hb, rfl, rfl⟩, hp⟩
  · rintro ⟨_, _, ⟨h1, h2, r, c, hr, hc, hb, rfl, rfl⟩, hp⟩
    exact ⟨c, r, ⟨hr, hc, hb⟩, ⟨h1, h2⟩, hp⟩

/-- What a draw writes besides the framebuffer: VF, `DIRTY` and `PC`, nothing else. -/
theorem State.draw_eq (s : State) (x y : RegIx) (cells : List (Nat × Nat)) :
    s.draw x y cells =
      { s with
        v := s.v.set vf (flagByte (drawCells s.doubled s.mode (s.drawX x) (s.drawY y) cells s.fb).2)
        fb := (drawCells s.doubled s.mode (s.drawX x) (s.drawY y) cells s.fb).1
        dirty := true
        pc := pcPlus s.pc 2 } := rfl

end Sys2Proof.Machine
end

