-- ==== Sys2Proof/Laws/Encoding.lean ====
section
/-! SUPPORT. The fields of the words that the encoder builds (spec/30_encoding.md R60, R61), and what the dispatch reads
of them. -/

namespace Sys2Proof

theorem toFin_ofFin (x : RegIx) : (BitVec.ofFin (w := 4) x).toFin = x := rfl

/-! ### Bits of a built word -/

theorem wordOfAddr_bit (c : Nibble) (a : Addr) (k : Nat) :
    (wordOfAddr c a).getLsbD k = if k < 12 then a.getLsbD k else c.getLsbD (k - 12) := by
  exact BitVec.getLsbD_append (x := c) (y := a)

theorem wordOfByte_bit (c : Nibble) (x : RegIx) (kk : Byte) (k : Nat) :
    (wordOfByte c x kk).getLsbD k =
      if k < 8 then kk.getLsbD k else if k < 12 then (BitVec.ofFin (w := 4) x).getLsbD (k - 8) else c.getLsbD (k - 12) := by
  have h1 : (wordOfByte c x kk).getLsbD k = (wordOfAddr c (BitVec.ofFin (w := 4) x ++ kk)).getLsbD k := rfl
  have h2 : (BitVec.ofFin (w := 4) x ++ kk : Addr).getLsbD k =
      if k < 8 then kk.getLsbD k else (BitVec.ofFin (w := 4) x).getLsbD (k - 8) :=
    BitVec.getLsbD_append (x := BitVec.ofFin (w := 4) x) (y := kk)
  rw [h1, wordOfAddr_bit, h2]
  by_cases h8 : k < 8
  · simp [h8, show k < 12 by omega]
  · simp [h8]

theorem wordOfNibbles_bit (c : Nibble) (x y : RegIx) (n : Nibble) (k : Nat) :
    (wordOfNibbles c x y n).getLsbD k =
      if k < 4 then n.getLsbD k else if k < 8 then (BitVec.ofFin (w := 4) y).getLsbD (k - 4)
      else if k < 12 then (BitVec.ofFin (w := 4) x).getLsbD (k - 8) else c.getLsbD (k - 12) := by
  have h1 : (wordOfNibbles c x y n).getLsbD k = (wordOfByte c x (BitVec.ofFin (w := 4) y ++ n)).getLsbD k := rfl
  have h2 : (BitVec.ofFin (w := 4) y ++ n : Byte).getLsbD k =
      if k < 4 then n.getLsbD k else (BitVec.ofFin (w := 4) y).getLsbD (k - 4) :=
    BitVec.getLsbD_append (x := BitVec.ofFin (w := 4) y) (y := n)
  rw [h1, wordOfByte_bit, h2]
  by_cases h4 : k < 4
  · simp [h4, show k < 8 by omega]
  · simp [h4]

/-! ### Fields of a built word -/

theorem fieldsOf_wordOfAddr (c : Nibble) (a : Addr) :
    (fieldsOf (wordOfAddr c a)).cls = c ∧ (fieldsOf (wordOfAddr c a)).addr = a := by
  refine ⟨?_, ?_⟩ <;> simp only [fieldsOf] <;> ext k hk <;>
    simp [BitVec.getElem_extractLsb', wordOfAddr_bit, hk]

theorem fieldsOf_wordOfByte (c : Nibble) (x : RegIx) (kk : Byte) :
    (fieldsOf (wordOfByte c x kk)).cls = c ∧ (fieldsOf (wordOfByte c x kk)).x = x ∧ (fieldsOf (wordOfByte c x kk)).kk = kk := by
  refine ⟨?_, ?_, ?_⟩
  · simp only [fieldsOf]; ext k hk; simp [BitVec.getElem_extractLsb', wordOfByte_bit, show ¬12 + k < 8 by omega, BitVec.getLsbD_eq_getElem hk]
  · have : (wordOfByte c x kk).extractLsb' 8 4 = BitVec.ofFin (w := 4) x := by
      ext k hk; simp only [BitVec.getElem_extractLsb', wordOfByte_bit]
      rw [if_neg (by omega), if_pos (by omega), Nat.add_sub_cancel_left, BitVec.getLsbD_eq_getElem hk]
    simp only [fieldsOf, this]
  · simp only [fieldsOf]; ext k hk; simp [BitVec.getElem_extractLsb', wordOfByte_bit, hk]

theorem fieldsOf_wordOfNibbles (c : Nibble) (x y : RegIx) (n : Nibble) :
    (fieldsOf (wordOfNibbles c x y n)).cls = c ∧ (fieldsOf (wordOfNibbles c x y n)).x = x ∧
      (fieldsOf (wordOfNibbles c x y n)).y = y ∧ (fieldsOf (wordOfNibbles c x y n)).n = n := by
  refine ⟨?_, ?_, ?_, ?_⟩
  · simp only [fieldsOf]; ext k hk
    simp [BitVec.getElem_extractLsb', wordOfNibbles_bit, show ¬12 + k < 4 by omega, show ¬12 + k < 8 by omega, BitVec.getLsbD_eq_getElem hk]
  · have : (wordOfNibbles c x y n).extractLsb' 8 4 = BitVec.ofFin (w := 4) x := by
      ext k hk; simp only [BitVec.getElem_extractLsb', wordOfNibbles_bit]
      rw [if_neg (by omega), if_neg (by omega), if_pos (by omega), Nat.add_sub_cancel_left, BitVec.getLsbD_eq_getElem hk]
    simp only [fieldsOf, this]
  · have : (wordOfNibbles c x y n).extractLsb' 4 4 = BitVec.ofFin (w := 4) y := by
      ext k hk; simp only [BitVec.getElem_extractLsb', wordOfNibbles_bit]
      rw [if_neg (by omega), if_pos (by omega), Nat.add_sub_cancel_left, BitVec.getLsbD_eq_getElem hk]
    simp only [fieldsOf, this]
  · simp only [fieldsOf]; ext k hk; simp [BitVec.getElem_extractLsb', wordOfNibbles_bit, hk]

/-- The fields of any word rebuild it, in each of the three views of R60. -/
theorem wordOfAddr_fieldsOf (w : Word) : wordOfAddr (fieldsOf w).cls (fieldsOf w).addr = w := by
  ext k hk
  rw [← BitVec.getLsbD_eq_getElem, wordOfAddr_bit, ← BitVec.getLsbD_eq_getElem]
  simp only [fieldsOf, BitVec.getLsbD_extractLsb']
  split
  · simp [*]
  · simp [show 12 + (k - 12) = k by omega, show k - 12 < 4 by omega]

theorem wordOfByte_fieldsOf (w : Word) : wordOfByte (fieldsOf w).cls (fieldsOf w).x (fieldsOf w).kk = w := by
  ext k hk
  rw [← BitVec.getLsbD_eq_getElem, wordOfByte_bit, ← BitVec.getLsbD_eq_getElem]
  simp only [fieldsOf, BitVec.ofFin_toFin, BitVec.getLsbD_extractLsb']
  split
  · simp [*]
  · split
    · simp [show 8 + (k - 8) = k by omega, show k - 8 < 4 by omega]
    · simp [show 12 + (k - 12) = k by omega, show k - 12 < 4 by omega]

theorem wordOfNibbles_fieldsOf (w : Word) :
    wordOfNibbles (fieldsOf w).cls (fieldsOf w).x (fieldsOf w).y (fieldsOf w).n = w := by
  ext k hk
  rw [← BitVec.getLsbD_eq_getElem, wordOfNibbles_bit, ← BitVec.getLsbD_eq_getElem]
  simp only [fieldsOf, BitVec.ofFin_toFin, BitVec.getLsbD_extractLsb']
  split
  · simp [*]
  · split
    · simp [show 4 + (k - 4) = k by omega, show k - 4 < 4 by omega]
    · split
      · simp [show 8 + (k - 8) = k by omega, show k - 8 < 4 by omega]
      · simp [show 12 + (k - 12) = k by omega, show k - 12 < 4 by omega]

/-! ### The dispatch on a built word -/

theorem decodeWord_addr (c : Nibble) (a : Addr) :
    decodeWord (wordOfAddr c a) = decodeFields { fieldsOf (wordOfAddr c a) with cls := c, addr := a } := by
  obtain ⟨h1, h2⟩ := fieldsOf_wordOfAddr c a
  unfold decodeWord
  congr 1
  rcases h : fieldsOf (wordOfAddr c a) with ⟨cls, x, y, n, kk, addr⟩
  simp_all

theorem decodeWord_byte (c : Nibble) (x : RegIx) (kk : Byte) :
    decodeWord (wordOfByte c x kk) = decodeFields { fieldsOf (wordOfByte c x kk) with cls := c, x := x, kk := kk } := by
  obtain ⟨h1, h2, h3⟩ := fieldsOf_wordOfByte c x kk
  unfold decodeWord
  congr 1
  rcases h : fieldsOf (wordOfByte c x kk) with ⟨cls, x, y, n, kk, addr⟩
  simp_all

theorem decodeWord_nibbles (c : Nibble) (x y : RegIx) (n : Nibble) :
    decodeWord (wordOfNibbles c x y n) =
      decodeFields { fieldsOf (wordOfNibbles c x y n) with cls := c, x := x, y := y, n := n } := by
  obtain ⟨h1, h2, h3, h4⟩ := fieldsOf_wordOfNibbles c x y n
  unfold decodeWord
  congr 1
  rcases h : fieldsOf (wordOfNibbles c x y n) with ⟨cls, x, y, n, kk, addr⟩
  simp_all

/-- The two bytes of a word make the word again (R43). -/
theorem wordOfBytes_hi_lo (w : Word) : wordOfBytes (hiByte w) (loByte w) = w := by
  have bit : ∀ k, (wordOfBytes (hiByte w) (loByte w)).getLsbD k =
      if k < 8 then (loByte w).getLsbD k else (hiByte w).getLsbD (k - 8) := fun k =>
    BitVec.getLsbD_append (x := hiByte w) (y := loByte w)
  ext k hk
  rw [← BitVec.getLsbD_eq_getElem, bit, ← BitVec.getLsbD_eq_getElem]
  simp only [hiByte, loByte, BitVec.getLsbD_extractLsb']
  split
  · simp [*]
  · simp [show 8 + (k - 8) = k by omega, show k - 8 < 8 by omega]

/-- The high byte of a built word is its first byte. -/
@[simp] theorem hiByte_wordOfBytes (hi lo : Byte) : hiByte (wordOfBytes hi lo) = hi := by
  ext k hk
  have h : (wordOfBytes hi lo).getLsbD (8 + k) = if 8 + k < 8 then lo.getLsbD (8 + k) else hi.getLsbD (8 + k - 8) :=
    BitVec.getLsbD_append (x := hi) (y := lo)
  rw [← BitVec.getLsbD_eq_getElem, ← BitVec.getLsbD_eq_getElem, hiByte, BitVec.getLsbD_extractLsb', h, if_neg (by omega)]
  simp [hk]

/-- The low byte of a built word is its second byte. -/
@[simp] theorem loByte_wordOfBytes (hi lo : Byte) : loByte (wordOfBytes hi lo) = lo := by
  ext k hk
  have h : (wordOfBytes hi lo).getLsbD (0 + k) = if 0 + k < 8 then lo.getLsbD (0 + k) else hi.getLsbD (0 + k - 8) :=
    BitVec.getLsbD_append (x := hi) (y := lo)
  rw [← BitVec.getLsbD_eq_getElem, ← BitVec.getLsbD_eq_getElem, loByte, BitVec.getLsbD_extractLsb', h, if_pos (by omega)]
  simp [hk]

end Sys2Proof
end

