-- ==== Sys2Proof/Laws/Step.lean ====
section
/-! SUPPORT. What a step and the few branching instructions can do, said once: the inversion lemmas a proof about every step
starts from. -/

namespace Sys2Proof.Machine

/-! ### The fetched word -/

/-- The two fetched bytes, the second address wrapped. -/
theorem fetchWord_eq (s : State) : fetchWord s = s.readByte s.pc.toNat ++ s.readByte ((s.pc.toNat + 1) % 4096) := by
  have h : s.readByte ((s.pc.toNat + 1) % 4096) = s.readByte (s.pc.toNat + 1) := State.readByte_mod s _
  rw [h]; rfl

theorem tableWord_toNat (w : Word) : tableWord 16 w.toNat = w := by
  unfold tableWord
  rw [Nat.mod_eq_of_lt w.isLt]
  simp

/-- Every byte of memory after a word was placed at `PC`. -/
theorem placeWord_readByte (s : State) (w : Word) (a : Nat) :
    (placeWord s w).readByte a =
      if a % 4096 = (s.pc.toNat + 1) % 4096 then loByte w else if a % 4096 = s.pc.toNat then hiByte w else s.readByte a := by
  have h : (placeWord s w).readByte a =
      ((s.writeByte s.pc.toNat (hiByte w)).writeByte (s.pc.toNat + 1) (loByte w)).readByte a := rfl
  rw [h, State.readByte_writeByte, State.readByte_writeByte]
  simp only [memSize, Nat.mod_eq_of_lt s.pc.isLt]

/-! ### Program counter and stack -/

theorem pcPlus_toNat (pc : Addr) (k : Nat) : (pcPlus pc k).toNat = (pc.toNat + k) % 4096 := by simp [pcPlus]

/-- Where a skip goes on. -/
theorem skip_toNat (pc : Addr) (c : Prop) [Decidable c] :
    (pcPlus pc (if decide c = true then 4 else 2)).toNat = (pc.toNat + if c then 4 else 2) % 4096 := by
  by_cases h : c <;> simp [h, pcPlus]

/-- The entry a pop exposes is the one below `SP`. -/
theorem State.stackAt_pop {s : State} {k : Fin 16} (h : s.sp.toNat = k.val + 1) :
    s.pop.sp.toNat = k.val ∧ s.pop.stackAt = s.stack[k] := by
  have hk : (s.sp - 1).toNat = k.val := by
    have := k.isLt
    have := s.sp.isLt
    rw [BitVec.toNat_sub]
    simp
    omega
  refine ⟨hk, ?_⟩
  simp only [State.stackAt, State.pop, hk]
  rfl

theorem execCall_of_ne {s : State} (addr : Addr) (h : s.sp ≠ 15) :
    execCall addr s = .next ((s.push s.pc).jumpTo addr) := if_neg h

theorem execCall_full {s : State} (addr : Addr) (h : s.sp = 15) :
    execCall addr s = .next { s with err := ⟨.stackOverflow, encode (.call addr), s.pc⟩ } := if_pos h

theorem execRet_of_ne {s : State} (h : s.sp ≠ 0) :
    execRet s = .next (s.pop.jumpTo (pcPlus s.pop.stackAt 2)) := if_neg h

theorem execRet_empty {s : State} (h : s.sp = 0) :
    execRet s = .next { s with err := ⟨.stackUnderflow, encode .ret, s.pc⟩ } := if_pos h

/-! ### The key wait -/

theorem execLdVxK_of_key {s : State} {k : RegIx} (x : RegIx) (h : s.firstKey = some k) :
    execLdVxK x s = .next { s.writeV x (keyByte k) with waiting := false }.advance := by
  unfold execLdVxK; rw [h]

theorem execLdVxK_of_none {s : State} (x : RegIx) (h : s.firstKey = none) :
    execLdVxK x s = .next { s with waiting := true } := by
  unfold execLdVxK; rw [h]

/-! ### The fault record -/

theorem State.faultRecordTrue_of_noErr {s : State} (h : s.err = noErr) : s.FaultRecordTrue := by
  unfold State.FaultRecordTrue; rw [h]; rfl

theorem State.FaultRecordTrue.noErr {s : State} (h : s.FaultRecordTrue) (he : s.err.code = .none) : s.err = noErr := by
  unfold State.FaultRecordTrue at h; rw [he] at h; exact h

/-! ### The step -/

theorem step_of_halted {s : State} (h : s.err.code ≠ .none) : step s = .next s := by
  simp [step, State.halted, h, haltedStep]

theorem step_of_decode {s : State} {i : Instr} (h : s.err.code = .none) (hi : decodeWord (fetchWord s) = some i) :
    step s = exec i s := by
  simp [step, State.halted, h, hi]

theorem step_of_unrecognized {s : State} (h : s.err.code = .none) (hi : decodeWord (fetchWord s) = none) :
    step s = .next { s with err := ⟨.unrecognizedOpcode, fetchWord s, s.pc⟩ } := by
  simp [step, State.halted, h, hi, unrecognized, raise]

/-- A step does one of three things: nothing (halted), an instruction, or the fault of an unrecognized word. -/
theorem step_cases {s t : State} (h : step s = .next t) :
    (s.err.code ≠ .none ∧ t = s) ∨
    (s.err.code = .none ∧ ∃ i, decodeWord (fetchWord s) = some i ∧ exec i s = .next t) ∨
    (s.err.code = .none ∧ decodeWord (fetchWord s) = none ∧
      t = { s with err := ⟨.unrecognizedOpcode, fetchWord s, s.pc⟩ }) := by
  by_cases he : s.err.code = .none
  · cases hi : decodeWord (fetchWord s) with
    | none =>
      rw [step_of_unrecognized he hi] at h
      exact .inr (.inr ⟨he, rfl, by cases h; rfl⟩)
    | some i => exact .inr (.inl ⟨he, i, rfl, by rw [← step_of_decode he hi]; exact h⟩)
  · rw [step_of_halted he] at h
    exact .inl ⟨he, by cases h; rfl⟩

end Sys2Proof.Machine
end

