-- ==== Sys2Proof/Laws/Host.lean ====
section
/-! SUPPORT. The init image part by part (spec/20_memory.md R46), `init` as the host performs it, and where a run ends
(spec/70_reset_and_hazards.md R203). -/

namespace Sys2Proof.Machine

/-! ### The init image -/

theorem image_glyphLo (c : Config.Instance) (d : Fin 16) (k : Fin 5) :
    image c (c.fontLoBase.toNat + (5 * d.val + k.val)) = c.glyphLo[d][k] := by
  have h1 : (5 * d.val + k.val) / 5 = d.val := by omega
  have h2 : (5 * d.val + k.val) % 5 = k.val := by omega
  rw [image, if_pos (by simp only [fontHiBase]; omega), Nat.add_sub_cancel_left]
  simp [glyphLoByte, h1, h2, Vector.getD]

theorem image_glyphHi (c : Config.Instance) (d : Fin 10) (k : Fin 10) :
    image c (c.fontLoBase.toNat + 80 + (10 * d.val + k.val)) = c.glyphHi[d][k] := by
  have h1 : (10 * d.val + k.val) / 10 = d.val := by omega
  have h2 : (10 * d.val + k.val) % 10 = k.val := by omega
  rw [image, if_neg (by simp only [fontHiBase]; omega), if_pos (by simp only [fontHiBase, fontEnd]; omega), fontHiBase,
    Nat.add_sub_cancel_left]
  simp only [glyphHiByte, h1, h2]
  simp [Vector.getD]

theorem regionsInOrder_iff (c : Config.Instance) :
    regionsInOrder c = true ↔ c.fontLoBase.toNat + 180 ≤ c.progBase.toNat := by
  rw [regionsInOrder, decide_eq_true_iff, fontEnd, fontHiBase]

theorem romFits_iff (c : Config.Instance) : romFits c = true ↔ c.rom.length ≤ 4096 - c.progBase.toNat := by
  rw [romFits, decide_eq_true_iff]; exact Iff.rfl

/-- Behind the glyph sets the image is the program region. -/
theorem image_behind (c : Config.Instance) {a : Nat} (h : c.fontLoBase.toNat + 180 ≤ a) :
    image c a = if c.progBase.toNat ≤ a then c.rom.getD (a - c.progBase.toNat) 0 else 0 := by
  rw [image, if_neg (by simp only [fontHiBase]; omega), if_neg (by simp only [fontEnd, fontHiBase]; omega)]

theorem image_rom {c : Config.Instance} (h : regionsInOrder c = true) (j : Nat) :
    image c (c.progBase.toNat + j) = c.rom.getD j 0 := by
  have := (regionsInOrder_iff c).1 h
  rw [image_behind c (by omega), if_pos (by omega), Nat.add_sub_cancel_left]

/-- Before the glyph sets the image is zero, if the regions are in order. -/
theorem image_before {c : Config.Instance} (h : regionsInOrder c = true) {a : Nat} (ha : a < c.fontLoBase.toNat) :
    image c a = 0 := by
  have := (regionsInOrder_iff c).1 h
  rw [image, if_neg (by omega), if_neg (by simp only [fontHiBase]; omega), if_neg (by omega)]

/-! ### `init` -/

theorem hostInit_of_ok {c : Config.Instance} (s : State) (f : Vector Byte 8) (h : instanceOk c = true) :
    s.hostInit c f = .next { State.init c f with rndIx := s.rndIx } := by
  simp only [instanceOk, Bool.and_eq_true] at h
  simp [State.hostInit, h.1, h.2]

theorem hostInit_of_tooLong {c : Config.Instance} (s : State) (f : Vector Byte 8) (ho : regionsInOrder c = true)
    (h : romFits c = false) : s.hostInit c f = .refused .romTooLong := by
  simp [State.hostInit, ho, h]

theorem hostInit_of_outOfOrder {c : Config.Instance} (s : State) (f : Vector Byte 8) (h : regionsInOrder c = false) :
    s.hostInit c f = .refused .regionsOutOfOrder := by
  simp [State.hostInit, h]

/-- `init` answers a next state only for an instance there is, and then the state after `init` with the machine's supply of
random bytes. -/
theorem hostInit_cases {c : Config.Instance} {f : Vector Byte 8} {s t : State} (h : s.hostInit c f = .next t) :
    instanceOk c = true ∧ t = { State.init c f with rndIx := s.rndIx } := by
  unfold State.hostInit at h
  split at h
  · rename_i ho
    split at h
    · rename_i hr
      exact ⟨by simp [instanceOk, ho, hr], by cases h; rfl⟩
    · cases h
  · cases h

/-- Right after `init` every address reads as the init image. -/
theorem State.readByte_init (c : Config.Instance) (f : Vector Byte 8) (a : Nat) :
    (State.init c f).readByte a = image c (a % 4096) := State.readByte_of_mem_nil rfl a

/-! ### The end of a run -/

theorem State.runEnd_eq_none {s : State} : s.runEnd = none ↔ s.exit = false ∧ s.err.code = .none := by
  unfold State.runEnd State.endedAbnormally State.endedNormally State.halted
  cases s.exit <;> by_cases h : s.err.code = .none <;> simp [h]

theorem State.runEnd_eq_normal {s : State} : s.runEnd = some .normal ↔ s.exit = true ∧ s.err.code = .none := by
  unfold State.runEnd State.endedAbnormally State.endedNormally State.halted
  cases s.exit <;> by_cases h : s.err.code = .none <;> simp [h]

theorem State.runEnd_eq_abnormal {s : State} : s.runEnd = some .abnormal ↔ s.err.code ≠ .none := by
  unfold State.runEnd State.endedAbnormally State.endedNormally State.halted
  cases s.exit <;> by_cases h : s.err.code = .none <;> simp [h]

/-- A run that has ended goes no further. -/
theorem runToEnd_of_ended {s : State} (h : s.runEnd.isSome = true) (es : List Event) : runToEnd es s = .next s := by
  cases es <;> simp [runToEnd, h]

/-- A run that has not ended performs its next operation. -/
theorem runToEnd_cons {s t : State} {e : Event} (h : s.runEnd = none) (he : act e s = .next t) (es : List Event) :
    runToEnd (e :: es) s = runToEnd es t := by
  simp [runToEnd, h, he]

theorem runEvents_cons {s t : State} {e : Event} (he : act e s = .next t) (es : List Event) :
    runEvents (e :: es) s = runEvents es t := by
  simp [runEvents, he]

/-- What a run to the end does when it answers a next state: it has ended already, there is nothing to do, or it performs one
operation and goes on. -/
theorem runToEnd_cases {s t : State} {es : List Event} (h : runToEnd es s = .next t) :
    (s.runEnd.isSome = true ∧ t = s) ∨ (s.runEnd = none ∧ es = [] ∧ t = s) ∨
    (s.runEnd = none ∧ ∃ e es' u, es = e :: es' ∧ act e s = .next u ∧ runToEnd es' u = .next t) := by
  cases hs : s.runEnd with
  | some k =>
    rw [runToEnd_of_ended (by simp [hs])] at h
    exact .inl ⟨by simp, by cases h; rfl⟩
  | none =>
    cases es with
    | nil => exact .inr (.inl ⟨rfl, rfl, by cases h; rfl⟩)
    | cons e es =>
      cases he : act e s with
      | next u => exact .inr (.inr ⟨rfl, e, es, u, rfl, he, by rw [← runToEnd_cons hs he]; exact h⟩)
      | fault r => simp [runToEnd, hs, he] at h
      | refused r => simp [runToEnd, hs, he] at h

end Sys2Proof.Machine
end

