-- ==== Sys2Proof/Laws/PerInstr.lean ====
section
/-! SUPPORT. Decoding an encoded instruction gives it back: one lemma per constructor, for every value of its
operands. -/

namespace Sys2Proof.Laws.RoundTrip

/-- A well-formed instruction is what its own word decodes to. -/
def Statement (i : Instr) : Prop := i.wf = true → decodeWord (encode i) = some i

theorem scd (n : Nibble) : Statement (.scd n) := fun _ => by revert n; decide

theorem cls : Statement (.cls) := fun _ => rfl

theorem ret : Statement (.ret) := fun _ => rfl

theorem scr : Statement (.scr) := fun _ => rfl

theorem scl : Statement (.scl) := fun _ => rfl

theorem exit : Statement (.exit) := fun _ => rfl

theorem low : Statement (.low) := fun _ => rfl

theorem high : Statement (.high) := fun _ => rfl

theorem jp (addr : Addr) : Statement (.jp addr) := fun _ => (decodeWord_addr 0x1#4 addr).trans rfl

theorem call (addr : Addr) : Statement (.call addr) := fun _ => (decodeWord_addr 0x2#4 addr).trans rfl

theorem seByte (x : RegIx) (kk : Byte) : Statement (.seByte x kk) := fun _ => (decodeWord_byte 0x3#4 x kk).trans rfl

theorem sneByte (x : RegIx) (kk : Byte) : Statement (.sneByte x kk) := fun _ => (decodeWord_byte 0x4#4 x kk).trans rfl

theorem seReg (x y : RegIx) : Statement (.seReg x y) := fun _ => (decodeWord_nibbles 0x5#4 x y 0x0#4).trans rfl

theorem ldByte (x : RegIx) (kk : Byte) : Statement (.ldByte x kk) := fun _ => (decodeWord_byte 0x6#4 x kk).trans rfl

theorem addByte (x : RegIx) (kk : Byte) : Statement (.addByte x kk) := fun _ => (decodeWord_byte 0x7#4 x kk).trans rfl

theorem ldReg (x y : RegIx) : Statement (.ldReg x y) := fun _ => (decodeWord_nibbles 0x8#4 x y 0x0#4).trans rfl

theorem orReg (x y : RegIx) : Statement (.orReg x y) := fun _ => (decodeWord_nibbles 0x8#4 x y 0x1#4).trans rfl

theorem andReg (x y : RegIx) : Statement (.andReg x y) := fun _ => (decodeWord_nibbles 0x8#4 x y 0x2#4).trans rfl

theorem xorReg (x y : RegIx) : Statement (.xorReg x y) := fun _ => (decodeWord_nibbles 0x8#4 x y 0x3#4).trans rfl

theorem addReg (x y : RegIx) : Statement (.addReg x y) := fun _ => (decodeWord_nibbles 0x8#4 x y 0x4#4).trans rfl

theorem sub (x y : RegIx) : Statement (.sub x y) := fun _ => (decodeWord_nibbles 0x8#4 x y 0x5#4).trans rfl

theorem shr (x y : RegIx) : Statement (.shr x y) := fun _ => (decodeWord_nibbles 0x8#4 x y 0x6#4).trans rfl

theorem subn (x y : RegIx) : Statement (.subn x y) := fun _ => (decodeWord_nibbles 0x8#4 x y 0x7#4).trans rfl

theorem shl (x y : RegIx) : Statement (.shl x y) := fun _ => (decodeWord_nibbles 0x8#4 x y 0xE#4).trans rfl

theorem sneReg (x y : RegIx) : Statement (.sneReg x y) := fun _ => (decodeWord_nibbles 0x9#4 x y 0x0#4).trans rfl

theorem ldI (addr : Addr) : Statement (.ldI addr) := fun _ => (decodeWord_addr 0xA#4 addr).trans rfl

theorem jpV0 (addr : Addr) : Statement (.jpV0 addr) := fun _ => (decodeWord_addr 0xB#4 addr).trans rfl

theorem rnd (x : RegIx) (kk : Byte) : Statement (.rnd x kk) := fun _ => (decodeWord_byte 0xC#4 x kk).trans rfl

theorem drw (x y : RegIx) (n : Nibble) : Statement (.drw x y n) := fun h =>
  (decodeWord_nibbles 0xD#4 x y n).trans (if_neg fun (hn : n = 0#4) => by subst hn; exact Bool.false_ne_true h)

theorem drwWide (x y : RegIx) : Statement (.drwWide x y) := fun _ => (decodeWord_nibbles 0xD#4 x y 0x0#4).trans rfl

theorem skp (x : RegIx) : Statement (.skp x) := fun _ => (decodeWord_byte 0xE#4 x 0x9E#8).trans rfl

theorem sknp (x : RegIx) : Statement (.sknp x) := fun _ => (decodeWord_byte 0xE#4 x 0xA1#8).trans rfl

theorem ldVxDt (x : RegIx) : Statement (.ldVxDt x) := fun _ => (decodeWord_byte 0xF#4 x 0x07#8).trans rfl

theorem ldVxK (x : RegIx) : Statement (.ldVxK x) := fun _ => (decodeWord_byte 0xF#4 x 0x0A#8).trans rfl

theorem ldDtVx (x : RegIx) : Statement (.ldDtVx x) := fun _ => (decodeWord_byte 0xF#4 x 0x15#8).trans rfl

theorem ldStVx (x : RegIx) : Statement (.ldStVx x) := fun _ => (decodeWord_byte 0xF#4 x 0x18#8).trans rfl

theorem addI (x : RegIx) : Statement (.addI x) := fun _ => (decodeWord_byte 0xF#4 x 0x1E#8).trans rfl

theorem ldF (x : RegIx) : Statement (.ldF x) := fun _ => (decodeWord_byte 0xF#4 x 0x29#8).trans rfl

theorem ldHf (x : RegIx) : Statement (.ldHf x) := fun _ => (decodeWord_byte 0xF#4 x 0x30#8).trans rfl

theorem ldB (x : RegIx) : Statement (.ldB x) := fun _ => (decodeWord_byte 0xF#4 x 0x33#8).trans rfl

theorem storeRegs (x : RegIx) : Statement (.storeRegs x) := fun _ => (decodeWord_byte 0xF#4 x 0x55#8).trans rfl

theorem loadRegs (x : RegIx) : Statement (.loadRegs x) := fun _ => (decodeWord_byte 0xF#4 x 0x65#8).trans rfl

theorem saveFlags (x : RegIx) : Statement (.saveFlags x) := fun _ => (decodeWord_byte 0xF#4 x 0x75#8).trans rfl

theorem loadFlags (x : RegIx) : Statement (.loadFlags x) := fun _ => (decodeWord_byte 0xF#4 x 0x85#8).trans rfl

end Sys2Proof.Laws.RoundTrip
end

