-- ==== Sys2Proof/Tests/Slice0.lean ====
section
/-! SUPPORT. The row's own tests. Expected values are the spec's (spec/95_test_vectors.md, its vector numbers in the comments; a
word's decoding is written out from the patterns of spec/30_encoding.md R66), never the model's own answers. Then one
witness for every statement that has hypotheses. -/

namespace Sys2Proof.Tests

open Sys2Proof Sys2Proof.Machine

/-! ### Helpers -/

/-- One step on the word `w`, placed at `PC`. -/
def run (s : State) (w : Nat) : State :=
  match step (s.withFetchWord 16 w) with
  | .next t => t
  | _ => s

/-- The state after reset with some registers set. -/
def regs (l : List (RegIx × Byte)) : State := l.foldl (fun s p => s.writeV p.1 p.2) State.reset

/-- The state after reset with some cells on. -/
def lit (m : Mode) (l : List (Nat × Nat)) : State :=
  { State.reset with mode := m, dirty := false, fb := l.foldl (fun g p => toggle g p.1 p.2) blank }

/-- Some bytes of memory written, one after the other. -/
def bytes (s : State) (a : Nat) (l : List Byte) : State := l.zipIdx.foldl (fun t p => t.writeByte (a + p.2) p.1) s

/-- The framebuffer of a grid is exactly these cells. -/
def shows (s : State) (l : List (Nat × Nat)) : Bool := decide (s.fb = l.foldl (fun g p => toggle g p.1 p.2) blank)

/-- An instance that differs from the default one in its two open parameters. -/
def otherInstance : Config.Instance := { defaultInstance with addiCarry := false, loresDoubled := true }

/-- An instance with other addresses: the glyphs at 0x050, a program of one instruction at 0x600. -/
def movedInstance : Config.Instance := { defaultInstance with fontLoBase := 0x050, progBase := 0x600, rom := [0x60, 0x05] }

/-- Two instructions at 0x200: `EXIT`, then `LD V0, 0x01`. -/
def exitThenLoad : State := (((State.reset.writeByte 0x200 0x00).writeByte 0x201 0xFD).writeByte 0x202 0x60).writeByte 0x203 0x01

/-- The state an outcome gives. -/
def after (o : Host.Outcome State Fault Refusal) : State :=
  match o with
  | .next t => t
  | _ => State.reset

/-- The keyboard with some keys down. -/
def keys (l : List Nat) : Vector Bool 16 := Vector.ofFn fun k => decide (k.val ∈ l)

/-! ### Well-formedness -/

theorem test_wf_refuses_draw_of_zero_rows : (Instr.drw 1 2 0).illFormed = some .drawOfZeroRows := by decide
theorem test_wf_accepts_draw_of_fifteen_rows : (Instr.drw 1 2 15).wf = true := by decide

/-! ### Decoding: every constructor, by a word written out from the spec's pattern -/

/-- 0000 0000 1100 nnnn and the seven fixed words. -/
theorem test_decode_class_0 :
    decodeTableWord 16 0b0000000011001111 = some (.scd 15) ∧ decodeTableWord 16 0b0000000011100000 = some .cls ∧
    decodeTableWord 16 0b0000000011101110 = some .ret ∧ decodeTableWord 16 0b0000000011111011 = some .scr ∧
    decodeTableWord 16 0b0000000011111100 = some .scl ∧ decodeTableWord 16 0b0000000011111101 = some .exit ∧
    decodeTableWord 16 0b0000000011111110 = some .low ∧ decodeTableWord 16 0b0000000011111111 = some .high := by decide

/-- cccc aaaaaaaaaaaa. -/
theorem test_decode_addresses :
    decodeTableWord 16 0b0001101010111100 = some (.jp 0xABC) ∧ decodeTableWord 16 0b0010000100100011 = some (.call 0x123) ∧
    decodeTableWord 16 0b1010111111111110 = some (.ldI 0xFFE) ∧ decodeTableWord 16 0b1011001100000000 = some (.jpV0 0x300) := by
  decide

/-- cccc xxxx kkkkkkkk. -/
theorem test_decode_bytes :
    decodeTableWord 16 0b0011001100101010 = some (.seByte 3 0x2A) ∧
    decodeTableWord 16 0b0100010000101011 = some (.sneByte 4 0x2B) ∧
    decodeTableWord 16 0b0110101011111110 = some (.ldByte 10 0xFE) ∧
    decodeTableWord 16 0b0111111100000001 = some (.addByte 15 0x01) ∧
    decodeTableWord 16 0b1100001100001111 = some (.rnd 3 0x0F) := by decide

/-- cccc xxxx yyyy nnnn with `n` selecting. -/
theorem test_decode_register_pairs :
    decodeTableWord 16 0b0101000100100000 = some (.seReg 1 2) ∧ decodeTableWord 16 0b1001001000010000 = some (.sneReg 2 1) ∧
    decodeTableWord 16 0b1000000100100000 = some (.ldReg 1 2) ∧ decodeTableWord 16 0b1000000100100001 = some (.orReg 1 2) ∧
    decodeTableWord 16 0b1000000100100010 = some (.andReg 1 2) ∧ decodeTableWord 16 0b1000000100100011 = some (.xorReg 1 2) ∧
    decodeTableWord 16 0b1000000100100100 = some (.addReg 1 2) ∧ decodeTableWord 16 0b1000000100100101 = some (.sub 1 2) ∧
    decodeTableWord 16 0b1000000100100110 = some (.shr 1 2) ∧ decodeTableWord 16 0b1000000100100111 = some (.subn 1 2) ∧
    decodeTableWord 16 0b1000000100101110 = some (.shl 1 2) := by decide

/-- 1101 xxxx yyyy nnnn, `n` = 0 apart. -/
theorem test_decode_draws :
    decodeTableWord 16 0b1101111000010010 = some (.drw 14 1 2) ∧ decodeTableWord 16 0b1101111000010000 = some (.drwWide 14 1) := by
  decide

/-- cccc xxxx kkkkkkkk with `kk` selecting. -/
theorem test_decode_single_registers :
    decodeTableWord 16 0b1110001010011110 = some (.skp 2) ∧ decodeTableWord 16 0b1110001010100001 = some (.sknp 2) ∧
    decodeTableWord 16 0b1111000100000111 = some (.ldVxDt 1) ∧ decodeTableWord 16 0b1111001100001010 = some (.ldVxK 3) ∧
    decodeTableWord 16 0b1111000000010101 = some (.ldDtVx 0) ∧ decodeTableWord 16 0b1111010100011000 = some (.ldStVx 5) ∧
    decodeTableWord 16 0b1111001000011110 = some (.addI 2) ∧ decodeTableWord 16 0b1111011000101001 = some (.ldF 6) ∧
    decodeTableWord 16 0b1111011100110000 = some (.ldHf 7) ∧ decodeTableWord 16 0b1111100000110011 = some (.ldB 8) ∧
    decodeTableWord 16 0b1111100101010101 = some (.storeRegs 9) ∧ decodeTableWord 16 0b1111101001100101 = some (.loadRegs 10) ∧
    decodeTableWord 16 0b1111000101110101 = some (.saveFlags 1) ∧ decodeTableWord 16 0b1111111110000101 = some (.loadFlags 15) := by
  decide

/-- X1 to X6, X8, X10 to X15, X17 to X19. -/
theorem test_decode_unrecognized :
    ∀ w ∈ [0x0000, 0x0123, 0x00E1, 0x00D0, 0x00BF, 0x00FA, 0x5011, 0x8008, 0x800D, 0x800F, 0x9001, 0xE000, 0xE19F, 0xF000,
      0xF002, 0xF1FF], decodeTableWord 16 w = none := by decide

/-- The byte of the lower address is the high byte of the word (R43). -/
theorem test_decode_bytes_in_memory_order :
    decode [0x60, 0x05, 0x61] = .ok (.ldByte 0 5, [0x61]) ∧ decode [0x50, 0x11] = .error (.unrecognizedOpcode 0x5011) ∧
    decode [0x60] = .error .truncated := ⟨rfl, rfl, rfl⟩

/-- The spelling of R70, as the spec's programs write it (P1, P3, P4). -/
theorem test_text : (Instr.ldByte 0 0x05).text = "LD V0, 0x05" ∧ (Instr.loadRegs 2).text = "LD V2, [I]" ∧
    (Instr.call 0x210).text = "CALL 0x210" ∧ (Instr.drw 0 1 2).text = "DRW V0, V1, 2" := by decide

/-! ### Control flow -/

/-- F1, F3. -/
theorem test_jp : (run State.reset 0x1ABC).pc = 0xABC ∧ (run State.reset 0x1201).pc = 0x201 := by decide
/-- F5. -/
theorem test_call_to_depth_15 :
    (run { State.reset with sp := 14 } 0x2ABC).pc = 0xABC ∧ (run { State.reset with sp := 14 } 0x2ABC).sp = 15 ∧
    (run { State.reset with sp := 14 } 0x2ABC).stack[14] = 0x200 := by decide
/-- F6. -/
theorem test_call_overflow :
    (run { State.reset with sp := 15 } 0x2ABC).err = ⟨.stackOverflow, 0x2ABC, 0x200⟩ ∧
    (run { State.reset with sp := 15 } 0x2ABC).pc = 0x200 := by decide
/-- F9: the return address wraps. -/
theorem test_ret_wraps :
    (run { State.reset with sp := 1, stack := State.reset.stack.set 0 0xFFF } 0x00EE).pc = 0x001 ∧
    (run { State.reset with sp := 1, stack := State.reset.stack.set 0 0xFFF } 0x00EE).sp = 0 := by decide
/-- F10. -/
theorem test_ret_underflow : (run State.reset 0x00EE).err = ⟨.stackUnderflow, 0x00EE, 0x200⟩ := by decide
/-- F12, F13. -/
theorem test_jpV0 : (run (regs [(0, 2)]) 0xBFFF).pc = 0x001 ∧ (run (regs [(3, 0x10)]) 0xB300).pc = 0x300 := by decide
/-- F14, F15. -/
theorem test_seByte : (run (regs [(3, 0x2A)]) 0x332A).pc = 0x204 ∧ (run (regs [(3, 0x2A)]) 0x332B).pc = 0x202 := by decide
/-- F16, F17. -/
theorem test_sneByte : (run (regs [(3, 0x2A)]) 0x432A).pc = 0x202 ∧ (run (regs [(3, 0x2A)]) 0x4300).pc = 0x204 := by decide
/-- F18, F19. -/
theorem test_seReg :
    (run (regs [(1, 7), (2, 7)]) 0x5120).pc = 0x204 ∧ (run (regs [(1, 7), (2, 8)]) 0x5120).pc = 0x202 := by decide
/-- F21, F22. -/
theorem test_sneReg :
    (run (regs [(1, 7), (2, 8)]) 0x9120).pc = 0x204 ∧ (run (regs [(1, 7), (2, 7)]) 0x9120).pc = 0x202 := by decide
/-- F24. -/
theorem test_exit : (run State.reset 0x00FD).exit = true ∧ (run State.reset 0x00FD).pc = 0x202 := by decide
/-- F27: a skip wraps at the top of memory. -/
theorem test_skip_wraps : (run { State.reset with pc := 0xFFE } 0x3000).pc = 0x002 := by decide
/-- F29: the fetch wraps; the byte at 0x000 is the first glyph byte. -/
theorem test_fetch_wraps :
    fetchWord (({ State.reset with pc := 0xFFF }).writeByte 0xFFF 0x60) = 0x60F0 := by decide

/-! ### Registers, arithmetic, logic, random -/

/-- A1. -/
theorem test_ldByte : (run State.reset 0x6AFF).readV 10 = 0xFF := by decide
/-- A3, A4. -/
theorem test_addByte :
    (run (regs [(0, 0xFE), (15, 1)]) 0x7003).readV 0 = 0x01 ∧ (run (regs [(0, 0xFE), (15, 1)]) 0x7003).readV vf = 1 ∧
    (run (regs [(15, 0xFF)]) 0x7F01).readV vf = 0 := by decide
/-- A5. -/
theorem test_ldReg : (run (regs [(1, 9)]) 0x8010).readV 0 = 9 ∧ (run (regs [(1, 9)]) 0x8010).readV 1 = 9 := by decide
/-- A6. -/
theorem test_orReg :
    (run (regs [(0, 0xF0), (1, 0x0F), (15, 1)]) 0x8011).readV 0 = 0xFF ∧
    (run (regs [(0, 0xF0), (1, 0x0F), (15, 1)]) 0x8011).readV vf = 1 := by decide
/-- A7. -/
theorem test_andReg :
    (run (regs [(0, 0xF3), (1, 0x3F), (15, 1)]) 0x8012).readV 0 = 0x33 ∧
    (run (regs [(0, 0xF3), (1, 0x3F), (15, 1)]) 0x8012).readV vf = 1 := by decide
/-- A8. -/
theorem test_xorReg :
    (run (regs [(0, 0xFF), (1, 0x0F), (15, 1)]) 0x8013).readV 0 = 0xF0 ∧
    (run (regs [(0, 0xFF), (1, 0x0F), (15, 1)]) 0x8013).readV vf = 1 := by decide
/-- A12, A13. -/
theorem test_addReg :
    (run (regs [(0, 0xFF), (1, 0xFF)]) 0x8014).readV 0 = 0xFE ∧ (run (regs [(0, 0xFF), (1, 0xFF)]) 0x8014).readV vf = 1 ∧
    (run (regs [(0, 0xFF), (15, 1)]) 0x8014).readV vf = 0 := by decide
/-- A16, A17: VF as destination and as source. -/
theorem test_addReg_vf :
    (run (regs [(15, 0x10), (1, 1)]) 0x8F14).readV vf = 0 ∧ (run (regs [(0, 1), (15, 0xFF)]) 0x80F4).readV 0 = 0 ∧
    (run (regs [(0, 1), (15, 0xFF)]) 0x80F4).readV vf = 1 := by decide
/-- A18, A20. -/
theorem test_sub :
    (run (regs [(0, 5), (1, 7)]) 0x8015).readV 0 = 0xFE ∧ (run (regs [(0, 5), (1, 7)]) 0x8015).readV vf = 0 ∧
    (run (regs [(0, 5), (1, 5)]) 0x8015).readV vf = 1 := by decide
/-- A24, A26. -/
theorem test_sub_vf :
    (run (regs [(15, 3), (1, 5)]) 0x8F15).readV vf = 0 ∧ (run (regs [(0, 5), (15, 6)]) 0x80F5).readV 0 = 0xFF := by decide
/-- A27, A32. -/
theorem test_shr :
    (run (regs [(0, 5), (1, 0xAA)]) 0x8016).readV 0 = 2 ∧ (run (regs [(0, 5), (1, 0xAA)]) 0x8016).readV vf = 1 ∧
    (run (regs [(0, 5), (1, 0xAA)]) 0x8016).readV 1 = 0xAA ∧ (run (regs [(15, 2)]) 0x8F06).readV vf = 0 := by decide
/-- A33, A34, A36. -/
theorem test_subn :
    (run (regs [(0, 5), (1, 7)]) 0x8017).readV 0 = 2 ∧ (run (regs [(0, 5), (1, 7)]) 0x8017).readV vf = 1 ∧
    (run (regs [(0, 7), (1, 5)]) 0x8017).readV 0 = 0xFE ∧ (run (regs [(15, 3), (1, 5)]) 0x8F17).readV vf = 1 := by decide
/-- A39, A41. -/
theorem test_shl :
    (run (regs [(0, 0xFF), (1, 0x33)]) 0x801E).readV 0 = 0xFE ∧ (run (regs [(0, 0xFF), (1, 0x33)]) 0x801E).readV vf = 1 ∧
    (run (regs [(0, 0xFF), (1, 0x33)]) 0x801E).readV 1 = 0x33 ∧ (run (regs [(15, 1)]) 0x8F0E).readV vf = 0 := by decide
/-- A42, A44: the part of `RND` that is no free value. -/
theorem test_rnd_mask :
    (rndMasked 3 0x0F 0xA7 State.reset).readV 3 = 0x07 ∧ (rndMasked 3 0xFF 0xA7 State.reset).readV 3 = 0xA7 := by decide
/-- A43: a zero mask gives 0, whatever the free byte is. -/
theorem test_rnd_zero_mask : (run State.reset 0xC300).readV 3 = 0 ∧ (run State.reset 0xC300).pc = 0x202 :=
  ⟨by show Config.rnd 0 &&& 0#8 = 0#8; simp, rfl⟩

/-! ### Index register, memory, flags store -/

/-- M1. -/
theorem test_ldI : (run { State.reset with i := 0xFFFF } 0xA300).i = 0x0300 := by decide
/-- M5, M6. -/
theorem test_addI :
    (run { regs [(2, 1), (15, 1)] with i := 0x0FFF } 0xF21E).i = 0x1000 ∧
    (run { regs [(2, 1), (15, 1)] with i := 0x0FFF } 0xF21E).readV vf = 0 ∧
    (run { regs [(2, 0xFF)] with i := 0xFF01 } 0xF21E).i = 0 ∧
    (run { regs [(2, 0xFF)] with i := 0xFF01 } 0xF21E).readV vf = 1 := by decide
/-- M9, M10. -/
theorem test_addI_vf :
    (run { regs [(15, 5)] with i := 0xFFFE } 0xFF1E).i = 3 ∧ (run { regs [(15, 5)] with i := 0xFFFE } 0xFF1E).readV vf = 1 ∧
    (run { regs [(2, 0x10), (15, 1)] with i := 0x0300, cfg := otherInstance } 0xF21E).readV vf = 1 := by decide
/-- M12, M15. -/
theorem test_ldF : (run (regs [(0, 0x0A)]) 0xF029).i = 0x32 ∧ (run (regs [(0, 0xFF)]) 0xF029).i = 0x04FB := by decide
/-- M17, M20. -/
theorem test_ldHf : (run (regs [(0, 3)]) 0xF030).i = 0x6E ∧ (run (regs [(0, 0xFF)]) 0xF030).i = 0x0A46 := by decide
/-- M25: the store wraps over the first glyph. -/
theorem test_ldB :
    (run { regs [(0, 123)] with i := 0x0FFF } 0xF033).readByte 0xFFF = 1 ∧
    (run { regs [(0, 123)] with i := 0x0FFF } 0xF033).readByte 0x000 = 2 ∧
    (run { regs [(0, 123)] with i := 0x0FFF } 0xF033).readByte 0x001 = 3 := by decide
/-- S6, first step, and the registers after `Vx` are not stored. -/
theorem test_storeRegs :
    (run { regs [(0, 0xDE), (1, 0xAD), (2, 0xBE), (3, 0xEF), (4, 0x77)] with i := 0x400 } 0xF355).readByte 0x400 = 0xDE ∧
    (run { regs [(0, 0xDE), (1, 0xAD), (2, 0xBE), (3, 0xEF), (4, 0x77)] with i := 0x400 } 0xF355).readByte 0x403 = 0xEF ∧
    (run { regs [(0, 0xDE), (1, 0xAD), (2, 0xBE), (3, 0xEF), (4, 0x77)] with i := 0x400 } 0xF355).readByte 0x404 = 0 ∧
    (run { regs [(0, 0xDE), (1, 0xAD), (2, 0xBE), (3, 0xEF), (4, 0x77)] with i := 0x400 } 0xF355).i = 0x400 := by decide
/-- R126: `V0` to `Vx` alone; the bytes are the low glyph of digit 0 (I2). -/
theorem test_loadRegs :
    (run (regs [(3, 0x55)]) 0xF265).readV 0 = 0xF0 ∧ (run (regs [(3, 0x55)]) 0xF265).readV 2 = 0x90 ∧
    (run (regs [(3, 0x55)]) 0xF265).readV 3 = 0x55 ∧ (run (regs [(3, 0x55)]) 0xF265).i = 0 := by decide
/-- X20: all of V0 to V7, whatever `x` is. -/
theorem test_saveFlags :
    (run (regs [(0, 0xAB), (7, 0xCD), (8, 0xEE)]) 0xF175).flags = #v[0xAB, 0, 0, 0, 0, 0, 0, 0xCD] := by decide
/-- R129: all of V0 to V7, and V8 stays. -/
theorem test_loadFlags :
    (run { regs [(8, 0xEE)] with flags := #v[1, 2, 3, 4, 5, 6, 7, 8] } 0xF085).readV 0 = 1 ∧
    (run { regs [(8, 0xEE)] with flags := #v[1, 2, 3, 4, 5, 6, 7, 8] } 0xF085).readV 7 = 8 ∧
    (run { regs [(8, 0xEE)] with flags := #v[1, 2, 3, 4, 5, 6, 7, 8] } 0xF085).readV 8 = 0xEE := by decide

/-! ### Display -/

/-- S2. -/
theorem test_cls : shows (run (lit .low [(3, 0)]) 0x00E0) [] = true ∧ (run (lit .low [(3, 0)]) 0x00E0).dirty = true := by
  decide
/-- D5. -/
theorem test_low : shows (run (lit .high [(100, 50)]) 0x00FE) [] = true ∧ (run (lit .high [(100, 50)]) 0x00FE).mode = .low ∧
    (run (lit .high [(100, 50)]) 0x00FE).width = 64 := by decide
/-- D3. -/
theorem test_high : shows (run (lit .low [(3, 0)]) 0x00FF) [] = true ∧ (run (lit .low [(3, 0)]) 0x00FF).mode = .high ∧
    (run (lit .low [(3, 0)]) 0x00FF).height = 64 := by decide
/-- D7, D9. -/
theorem test_scd : shows (run (lit .low [(3, 0), (3, 30)]) 0x00C2) [(3, 2)] = true ∧
    shows (run (lit .high [(0, 48), (0, 49)]) 0x00CF) [(0, 63)] = true := by decide
/-- D10, D11. -/
theorem test_scr : shows (run (lit .low [(0, 5), (62, 5)]) 0x00FB) [(4, 5)] = true ∧
    shows (run (lit .high [(123, 0), (124, 0)]) 0x00FB) [(127, 0)] = true := by decide
/-- D12, D13. -/
theorem test_scl : shows (run (lit .low [(4, 5), (2, 5)]) 0x00FC) [(0, 5)] = true ∧
    shows (run (lit .low [(63, 5), (3, 5)]) 0x00FC) [(59, 5)] = true := by decide
/-- D17: the row below the edge and nothing else is clipped; D19: a collision. -/
theorem test_drw :
    shows (run (bytes { (regs [(0, 62), (1, 31)]) with i := 0x300 } 0x300 [0xC0, 0xC0]) 0xD012) [(62, 31), (63, 31)] = true ∧
    shows (run (bytes { lit .low [(1, 0)] with i := 0x300 } 0x300 [0xC0]) 0xD011) [(0, 0)] = true ∧
    (run (bytes { lit .low [(1, 0)] with i := 0x300 } 0x300 [0xC0]) 0xD011).readV vf = 1 := by decide
/-- D28: a doubled pixel; D30: the collision looks at the top-left cell only. -/
theorem test_drw_doubled :
    shows (run (bytes { regs [(1, 1)] with i := 0x300, cfg := otherInstance } 0x300 [0x80]) 0xD111)
      [(2, 2), (3, 2), (2, 3), (3, 3)] = true ∧
    shows (run (bytes ({ lit .low [(2, 3), (3, 3), (2, 4), (3, 4)] with i := 0x300, cfg := otherInstance }.writeV 1 1)
      0x300 [0x80]) 0xD111) [(2, 2), (3, 2), (2, 4), (3, 4)] = true ∧
    (run (bytes ({ lit .low [(2, 3), (3, 3), (2, 4), (3, 4)] with i := 0x300, cfg := otherInstance }.writeV 1 1)
      0x300 [0x80]) 0xD111).readV vf = 0 := by decide
/-- D25: two bytes a row. -/
theorem test_drwWide :
    shows (run (bytes { lit .high [] with i := 0x300 } 0x300 [0x80, 0x01]) 0xD000) [(0, 0), (15, 0)] = true ∧
    (run (bytes { lit .high [] with i := 0x300 } 0x300 [0x80, 0x01]) 0xD000).readV vf = 0 := by decide
/-- D24: zero rows in Low mode. -/
theorem test_drwWide_low :
    shows (run ((lit .low [(1, 1)]).writeV vf 1) 0xD000) [(1, 1)] = true ∧
    (run ((lit .low [(1, 1)]).writeV vf 1) 0xD000).readV vf = 0 ∧
    (run ((lit .low [(1, 1)]).writeV vf 1) 0xD000).dirty = true := by decide

/-! ### Keyboard, timers, host -/

/-- K2, K3. -/
theorem test_skp : (run (regs [(2, 7)]) 0xE29E).pc = 0x202 ∧
    (run { regs [(2, 0x17)] with key := keys [7] } 0xE29E).pc = 0x204 := by decide
/-- K4, K5. -/
theorem test_sknp : (run { regs [(2, 7)] with key := keys [7] } 0xE2A1).pc = 0x202 ∧
    (run (regs [(2, 7)]) 0xE2A1).pc = 0x204 := by decide
/-- K6. -/
theorem test_ldVxK_waits : (run (regs [(3, 0x55)]) 0xF30A).pc = 0x200 ∧ (run (regs [(3, 0x55)]) 0xF30A).waiting = true ∧
    (run (regs [(3, 0x55)]) 0xF30A).readV 3 = 0x55 := by decide
/-- K8: the lower of two keys, and AwaitingKey ends. -/
theorem test_ldVxK_captures : (run { State.reset with key := keys [7, 9], waiting := true } 0xF30A).readV 3 = 7 ∧
    (run { State.reset with key := keys [7, 9], waiting := true } 0xF30A).waiting = false ∧
    (run { State.reset with key := keys [7, 9], waiting := true } 0xF30A).pc = 0x202 := by decide
/-- K11. -/
theorem test_ldVxDt : (run { State.reset with dt := 5 } 0xF107).readV 1 = 5 := by decide
/-- K12. -/
theorem test_ldDtVx : (run (regs [(0, 0x3C)]) 0xF015).dt = 0x3C := by decide
/-- K13. -/
theorem test_ldStVx : (run (regs [(0, 2)]) 0xF018).st = 2 ∧ (run (regs [(0, 2)]) 0xF018).soundOn = true := by decide
/-- K14, K15. -/
theorem test_tick : ({ State.reset with dt := 2, st := 1 }.tick).dt = 1 ∧ ({ State.reset with dt := 2, st := 1 }.tick).st = 0 ∧
    (State.reset.tick).dt = 0 := by decide
/-- X1 and X21: the fault record, and the halted step. -/
theorem test_fault : (run State.reset 0x0000).err = ⟨.unrecognizedOpcode, 0x0000, 0x200⟩ ∧
    (run State.reset 0x0000).result = .fatal ⟨.unrecognizedOpcode, 0x0000, 0x200⟩ := by decide
/-- I2 to I5. -/
theorem test_glyphs :
    (List.range 5).map (fun k => State.reset.readByte k) = [0xF0, 0x90, 0x90, 0x90, 0xF0] ∧
    (List.range 5).map (fun k => State.reset.readByte (0x4B + k)) = [0xF0, 0x80, 0xF0, 0x80, 0x80] ∧
    (List.range 10).map (fun k => State.reset.readByte (0x50 + k)) =
      [0x3C, 0x7E, 0xE7, 0xC3, 0xC3, 0xC3, 0xC3, 0xE7, 0x7E, 0x3C] ∧
    (List.range 10).map (fun k => State.reset.readByte (0xAA + k)) =
      [0x3C, 0x7E, 0xC3, 0xC3, 0x7F, 0x3F, 0x03, 0x03, 0x3E, 0x7C] := by decide
/-- R46, R122, R30 with other addresses: digit A's glyph at 0x050 + 5 · 10, the program at 0x600, `PC` there. -/
theorem test_moved_instance : (State.init movedInstance defaultFlags).pc = 0x600 ∧
    (run { regs [(0, 0x0A)] with cfg := movedInstance } 0xF029).i = 0x082 ∧ (State.init movedInstance defaultFlags).readByte 0x082 = 0xF0 ∧
    (run { regs [(0, 3)] with cfg := movedInstance } 0xF030).i = 0x0BE ∧ (State.init movedInstance defaultFlags).readByte 0x0BE = 0x3C ∧
    (State.init movedInstance defaultFlags).readByte 0x601 = 0x05 ∧ (State.init movedInstance defaultFlags).readByte 0x000 = 0 := by
  decide
/-- Memory right after reset is canonical, and writing the value an address already reads as keeps it so. -/
theorem test_reset_memory_wf : Memory.wf (image State.reset.cfg) State.reset.mem = true ∧
    (State.reset.writeByte 0 0xF0).mem = [] ∧ ((State.reset.writeByte 0x300 7).writeByte 0x300 0).mem = [] := by decide

/-! ### Witnesses: a state and operands that meet the hypotheses of each statement that has some -/

/-- A state that meets the invariant and is not the one after reset: a byte stored, `PC` elsewhere. -/
def started : State := (({ State.reset with pc := 0x300, dt := 3 }.writeByte 0x300 0x60).writeByte 0x301 0x05)

theorem started_inv : started.Inv where
  memory := by decide
  regions := by decide
  confined := fun x y _ => pixel_blank x y
  lastSlot := rfl
  waits := fun h => by cases h
  fault := rfl

theorem witness_DecodeOfEncodeIsIdentity : (Instr.drw 15 0 1).wf = true ∧ (Instr.scd 0).wf = true := by decide
theorem witness_EncodeOfDecodeIsIdentity :
    decodeWord 0x00C0 = some (.scd 0) ∧ decodeWord 0x8FF6 = some (.shr 15 15) := by decide

theorem witness_StepRunsDecodedInstruction : started.err.code = .none ∧
    decodeWord (started.readByte started.pc.toNat ++ started.readByte ((started.pc.toNat + 1) % 4096)) = some (.ldByte 0 5) := by
  decide
/-- The same with the second byte behind the wrap: the word 0x60F0 at 0xFFF and 0x000 (F29). -/
theorem witness_StepRunsDecodedInstruction_wrap :
    ((State.reset.writeByte 0xFFF 0x60).readByte 0xFFF ++ (State.reset.writeByte 0xFFF 0x60).readByte ((0xFFF + 1) % 4096)) =
      0x60F0#16 ∧ decodeWord 0x60F0 = some (.ldByte 0 0xF0) := by decide
theorem witness_UnrecognizedWordFaults : State.reset.err.code = .none ∧
    0x0000#16 = State.reset.readByte State.reset.pc.toNat ++ State.reset.readByte ((State.reset.pc.toNat + 1) % 4096) ∧
    decodeWord 0x0000 = none := by decide
theorem witness_HaltedStepChangesNothing : ({ State.reset with err := ⟨.stackUnderflow, 0x00EE, 0x200⟩ }).err.code ≠ .none := by
  decide
theorem witness_PlacedWordIsRunNext : decodeWord 0x1200 = some (.jp 0x200) ∧
    (0xFFF : Nat) % 4096 ≠ State.reset.pc.toNat ∧ (0xFFF : Nat) % 4096 ≠ (State.reset.pc.toNat + 1) % 4096 := by decide
/-- One state a clause: the high byte stored by `x` = 0, by the last register, and by the ones digit; the low byte behind the wrap
at 0xFFF, the high byte then not stored to; the low byte not stored to. -/
theorem witness_StoredBytesAreFetchedNext :
    ({ State.reset with i := 0x202 }).dataAddr 0 = (State.reset.pc + 2#12).toNat ∧
    ({ State.reset with i := 0x1F3 }).dataAddr 15 = (State.reset.pc + 2#12).toNat ∧
    ({ State.reset with i := 0x200 }).dataAddr 2 = (State.reset.pc + 2#12).toNat ∧
    ({ State.reset with i := 0, pc := 0xFFD }).dataAddr 0 = ((0xFFD#12 + 2#12).toNat + 1) % 4096 ∧
    (∀ k, k < 3 → ({ State.reset with i := 0, pc := 0xFFD }).dataAddr k ≠ (0xFFD#12 + 2#12).toNat) ∧
    (∀ k, k ≤ (0 : RegIx).val → ({ State.reset with i := 0x202 }).dataAddr k ≠ ((State.reset.pc + 2#12).toNat + 1) % 4096) := by
  decide

theorem witness_StepKeepsInvariant : ∃ t, started.Inv ∧ step started = .next t ∧ t.pc = 0x302 :=
  ⟨_, started_inv, step_of_decode rfl (i := .ldByte 0 5) (by decide), rfl⟩
theorem witness_HostOperationsKeepInvariant : ∃ t, started.Inv ∧ hostAct .tick started = .next t ∧ t.dt = 2 :=
  ⟨_, started_inv, rfl, rfl⟩
theorem witness_ReachableStatesMeetInvariant : ∃ s, Reachable s ∧ s.halted = true :=
  ⟨_, .act .step (.init defaultInstance defaultFlags rfl) (step_of_unrecognized rfl (by decide)), rfl⟩

/-- The two sides of the two preconditions of `init` (I6, I7). -/
theorem witness_RegistersAfterInit :
    ({ defaultInstance with progBase := 0x0B3 }).progBase.toNat < defaultInstance.fontLoBase.toNat + 180 ∧
    defaultInstance.fontLoBase.toNat + 180 ≤ ({ defaultInstance with progBase := 0x0B4 }).progBase.toNat ∧
    4096 - defaultInstance.progBase.toNat < ({ defaultInstance with rom := List.replicate 3585 0 }).rom.length ∧
    ({ defaultInstance with rom := List.replicate 3584 0 }).rom.length ≤ 4096 - defaultInstance.progBase.toNat := by
  simp only [List.length_replicate]; decide
/-- Every range of the memory image has its first and its last address. -/
theorem witness_MemoryAfterInit :
    movedInstance.fontLoBase.toNat + 180 ≤ movedInstance.progBase.toNat ∧ movedInstance.rom.length ≤ 4096 - movedInstance.progBase.toNat ∧
    1 < movedInstance.rom.length ∧ 0x04F < movedInstance.fontLoBase.toNat ∧ movedInstance.fontLoBase.toNat + 180 ≤ 0x104 ∧
    0x5FF < movedInstance.progBase.toNat ∧ movedInstance.progBase.toNat + movedInstance.rom.length ≤ 0x602 ∧ 0xFFF < 4096 := by
  decide
theorem witness_ResetRestartsButKeepsFlags : ∃ s, RunsFrom defaultInstance s ∧ s.halted = true :=
  ⟨_, .step (.init defaultFlags rfl) (step_of_unrecognized rfl (by decide)), rfl⟩

theorem witness_CallPushesItsOwnAddress : State.reset.sp ≠ 15 ∧ ({ State.reset with sp := 14 }).sp ≠ 15 := by decide
theorem witness_ReturnResumesAfterTheCall : ({ State.reset with sp := 1 }).sp.toNat = (0 : Fin 16).val + 1 ∧
    ({ State.reset with sp := 15 }).sp.toNat = (14 : Fin 16).val + 1 := by decide
theorem witness_StackFaultsWriteOnlyErr : ({ State.reset with sp := 15 }).sp = 15 ∧ State.reset.sp = 0 := by decide
theorem witness_CallThenReturn : State.reset.sp ≠ 15 ∧ ({ State.reset with sp := 14 }).sp ≠ 15 := by decide
/-- A nonzero last digit, smallest and largest (X8). -/
theorem witness_CompareSkips : (1#4 : Nibble) ≠ 0x0#4 ∧ (15#4 : Nibble) ≠ 0x0#4 ∧
    decodeWord (wordOfNibbles 0x5#4 0 1 1#4) = none := by decide
/-- Registers below, at and above the last one transferred, and the destination other than VF. -/
theorem witness_register_ranges : (0 : RegIx) ≤ 15 ∧ (15 : RegIx) ≤ 15 ∧ (0 : RegIx) < 1 ∧ (0 : RegIx) ≠ vf ∧ (14 : RegIx) ≠ vf ∧
    8 ≤ (8 : RegIx).val ∧ (7 : RegIx).val < 8 := by decide
/-- An address outside the stored bytes, for a store that wraps, and the last one inside. -/
theorem witness_stored_ranges :
    (∀ k, k < 3 → 0x002 % 4096 ≠ ({ State.reset with i := 0xFFF }).dataAddr k) ∧
    ({ State.reset with i := 0xFFF }).dataAddr 2 = 0x001 := by decide
theorem witness_StoreThenLoadRestores : Unchanged [.v, .pc] State.reset (State.reset.writeV 0 7) := by
  intro it h
  cases it <;> simp_all [Item.same]

/-- The states that repeated `SCR` gives. -/
def scrolled : Nat → State
  | 0 => lit .high [(0, 0)]
  | n + 1 => (scrolled n).show (scrollRight (scrolled n).width (scrolled n).height scrollStep (scrolled n).fb)

theorem witness_RepeatedScrollRightEmpties : ∀ k, exec .scr (scrolled k) = .next (scrolled (k + 1)) := fun _ => rfl

/-- A plotted pixel at the last column and row, in each mode (R146: only the starting coordinate is wrapped). -/
theorem witness_DrawTogglesThePlottedCells :
    State.reset.cfg.loresDoubled = false ∧ ({ State.reset with cfg := otherInstance, mode := .high }).mode = .high ∧
    (regs [(0, 63), (1, 31)]).Plots 0 1 1 8 (fun _ _ => true) 63 31 :=
  ⟨rfl, rfl, by decide, by decide, 0, 0, by decide, by decide, rfl, by decide, by decide⟩
theorem witness_WideDrawTogglesThePlottedCells : (lit .high []).mode = .high ∧ State.reset.mode = .low := by decide
theorem witness_DoubledDrawTogglesBlocks :
    ({ State.reset with cfg := otherInstance }).cfg.loresDoubled = true ∧ ({ State.reset with cfg := otherInstance }).mode = .low := by
  decide
/-- A screen that is not empty, a pixel plotted where it is off; and both sizes of a pixel. -/
theorem witness_DrawTwiceRestores : (0 : RegIx) ≠ vf ∧ (1 : RegIx) ≠ vf ∧
    (1 : Nat) = (if State.reset.cfg.loresDoubled = true ∧ State.reset.mode = .low then 2 else 1) ∧
    (2 : Nat) = (if otherInstance.loresDoubled = true ∧ State.reset.mode = .low then 2 else 1) ∧
    (lit .high [(5, 5)]).Plots 0 1 16 16 (fun _ _ => true) 15 15 ∧ (lit .high [(5, 5)]).pixelAt 15 15 = false ∧
    (lit .high [(5, 5)]).pixelAt 5 5 = true :=
  ⟨by decide, by decide, by decide, by decide,
    ⟨by decide, by decide, 15, 15, by decide, by decide, rfl, by decide, by decide⟩, by decide, by decide⟩

theorem witness_KeySkips : (7 : RegIx).val = ((regs [(2, 0x17)]).readV 2).toNat % 16 ∧
    (15 : RegIx).val = ((regs [(2, 0xFF)]).readV 2).toNat % 16 := by decide
theorem witness_KeyWaitCapturesOrPolls :
    (({ State.reset with key := keys [15] }).key[(15 : RegIx)] = true ∧
      ∀ j : RegIx, j < 15 → ({ State.reset with key := keys [15] }).key[j] = false) ∧
    (({ State.reset with key := keys [0, 15] }).key[(0 : RegIx)] = true ∧
      ∀ j : RegIx, j < 0 → ({ State.reset with key := keys [0, 15] }).key[j] = false) ∧
    ∀ k : RegIx, State.reset.key[k] = false := by decide
theorem witness_AwaitingKeyLastsWithoutAKey :
    (bytes { State.reset with waiting := true } 0x200 [0xF3, 0x0A]).err.code = .none ∧
    (bytes { State.reset with waiting := true } 0x200 [0xF3, 0x0A]).waiting = true ∧
    decodeWord (fetchWord (bytes { State.reset with waiting := true } 0x200 [0xF3, 0x0A])) = some (.ldVxK 3) ∧
    ∀ k : RegIx, (bytes { State.reset with waiting := true } 0x200 [0xF3, 0x0A]).key[k] = false := by decide

/-- A run that ends at its first operation while the host would go on (R203). -/
theorem witness_RunEndsAtTheFirstExit : ∃ t, runToEnd [.step, .step] exitThenLoad = .next t ∧ t.exit = true ∧ t.pc = 0x202 ∧
    (after (runEvents [.step, .step] exitThenLoad)).pc = 0x204 :=
  have he : act .step exitThenLoad = .next (after (execExit exitThenLoad)) := step_of_decode rfl (i := .exit) (by decide)
  ⟨_, (runToEnd_cons (by decide) he _).trans (runToEnd_of_ended (by decide) _), rfl, rfl, by decide⟩

theorem witness_WritesStayInTheAccessMatrix : ∃ t, exec (.addReg 0 1) State.reset = .next t ∧
    writesReg (.addReg 0 1) 2 = false ∧ writesReg (.loadRegs 3) 4 = false ∧ writesReg (.loadFlags 0) 8 = false :=
  ⟨_, rfl, by decide⟩
theorem witness_StatusOutputsAreNotRead :
    Unchanged [.st, .dirty, .exit, .waiting] State.reset { State.reset with st := 9, dirty := false, exit := true, waiting := true } ∧
    ∃ t, exec (.ldVxK 0) State.reset = .next t := by
  refine ⟨fun it h => ?_, _, rfl⟩
  cases it <;> simp_all [Item.same] <;> intros <;> rfl
theorem witness_StepNeverClearsWhatTheHostClears : ∃ t, step { started with exit := true } = .next t ∧
    ({ started with exit := true }).dirty = true ∧ ({ started with exit := true }).exit = true :=
  ⟨_, step_of_decode rfl (i := .ldByte 0 5) (by decide), rfl, rfl⟩
/-- The last clause of that statement: a halted machine steps to itself. -/
theorem witness_StepNeverClearsWhatTheHostClears_halted :
    step { started with err := ⟨.stackOverflow, 0x2300, 0x300⟩ } = .next { started with err := ⟨.stackOverflow, 0x2300, 0x300⟩ } ∧
    ({ started with err := ⟨.stackOverflow, 0x2300, 0x300⟩ }).err.code ≠ .none :=
  ⟨step_of_halted (by decide), by decide⟩

end Sys2Proof.Tests
end

section
/-! PROOFS. The compare-and-skip instructions (spec/40_flow.md R84 to R87): the frame of a jump, what a conditional skip does
(R89), and the words whose last digit leaves a register comparison unrecognized. -/

namespace Sys2Proof

/-- R67 for class 0x5. -/
theorem decodeWord_class5_eq_none (x y : RegIx) {n : Nibble} (h : n ≠ 0x0#4) :
    decodeWord (wordOfNibbles 0x5#4 x y n) = none :=
  (decodeWord_nibbles 0x5#4 x y n).trans (if_neg h)

/-- R67 for class 0x9. -/
theorem decodeWord_class9_eq_none (x y : RegIx) {n : Nibble} (h : n ≠ 0x0#4) :
    decodeWord (wordOfNibbles 0x9#4 x y n) = none :=
  (decodeWord_nibbles 0x9#4 x y n).trans (if_neg h)

namespace Machine

/-- A jump writes `PC` alone. -/
theorem State.unchanged_jumpTo (s : State) (target : Addr) : Unchanged [.pc] s (s.jumpTo target) := by
  intro it hit
  cases it with
  | pc => simp at hit
  | _ => simp [Item.same]

/-- Where a skip on a decided condition goes on (R89). -/
theorem State.skipIf_decide_pc (s : State) (c : Prop) [Decidable c] :
    (s.skipIf (decide c)).pc = s.pc + (if c then 4#12 else 2#12) := by
  by_cases h : c <;> simp [h, pcPlus]

/-- A skip writes `PC` alone (R89). -/
theorem State.unchanged_skipIf (s : State) (b : Bool) : Unchanged [.pc] s (s.skipIf b) :=
  s.unchanged_jumpTo _

/-- An instruction that is a skip on a decided condition goes on at `PC` + 4 or `PC` + 2 and writes nothing else. -/
theorem exists_next_of_exec_eq_skipIf {i : Instr} {s : State} (c : Prop) [Decidable c]
    (h : exec i s = .next (s.skipIf (decide c))) :
    ∃ t, exec i s = .next t ∧ t.pc = s.pc + (if c then 4#12 else 2#12) ∧ Unchanged [.pc] s t :=
  ⟨_, h, s.skipIf_decide_pc c, s.unchanged_skipIf _⟩

/-- Settles O24: each instruction is one skip on its own condition, and its word decodes by its class and last digit. -/
theorem compareSkips : Obligations.CompareSkips := by
  intro x y kk s
  refine ⟨⟨?_, ?_⟩, ⟨?_, ?_⟩, ⟨?_, ?_, ?_⟩, ?_, ?_, ?_⟩
  · exact Laws.RoundTrip.seByte x kk rfl
  · exact exists_next_of_exec_eq_skipIf (s.readV x = kk) rfl
  · exact Laws.RoundTrip.sneByte x kk rfl
  · exact exists_next_of_exec_eq_skipIf (s.readV x ≠ kk) rfl
  · exact Laws.RoundTrip.seReg x y rfl
  · exact fun _ => decodeWord_class5_eq_none x y
  · exact exists_next_of_exec_eq_skipIf (s.readV x = s.readV y) rfl
  · exact Laws.RoundTrip.sneReg x y rfl
  · exact fun _ => decodeWord_class9_eq_none x y
  · exact exists_next_of_exec_eq_skipIf (s.readV x ≠ s.readV y) rfl

end Machine
end Sys2Proof
end

section
/-! PROOFS. The register loads and the operations that write VF (spec/41_alu.md R101, R103, R107 to R111): frames of register
writes, what "result first, flag second" leaves in the registers (R100), and results and flags as numbers. -/

namespace Sys2Proof.Machine

/-! ### Frames -/

theorem Item.same_trans {it : Item} {s t u : State} (hst : it.same s t) (htu : it.same t u) : it.same s u := by
  cases it with
  | v | mem => exact fun k => (htu k).trans (hst k)
  | fb => exact fun x y => (htu x y).trans (hst x y)
  | _ => exact Eq.trans htu hst

theorem Unchanged.mono {l m : List Item} {s t : State} (h : Unchanged l s t) (hlm : l ⊆ m) : Unchanged m s t :=
  fun it hit => h it fun hl => hit (hlm hl)

theorem Unchanged.trans {l : List Item} {s t u : State} (hst : Unchanged l s t) (htu : Unchanged l t u) : Unchanged l s u :=
  fun it hit => Item.same_trans (hst it hit) (htu it hit)

/-- A register write writes the registers alone. -/
theorem State.unchanged_writeV (s : State) (r : RegIx) (b : Byte) : Unchanged [.v] s (s.writeV r b) := by
  intro it hit
  cases it with
  | v => simp at hit
  | _ => simp [Item.same]

theorem State.unchanged_writeV_advance (s : State) (r : RegIx) (b : Byte) : Unchanged [.v, .pc] s (s.writeV r b).advance :=
  ((s.unchanged_writeV r b).mono (by simp)).trans (((s.writeV r b).unchanged_jumpTo _).mono (by simp))

theorem State.unchanged_writeResultThenFlag_advance (s : State) (x : RegIx) (result : Byte) (flag : Bool) :
    Unchanged [.v, .pc] s (s.writeResultThenFlag x result flag).advance :=
  ((s.unchanged_writeV x result).mono (by simp)).trans ((s.writeV x result).unchanged_writeV_advance vf (flagByte flag))

/-! ### What an instruction that writes one register, or a result and a flag, leaves behind -/

theorem exists_next_of_exec_eq_writeV {i : Instr} {s : State} {x : RegIx} {b : Byte}
    (h : exec i s = .next (s.writeV x b).advance) :
    ∃ t, exec i s = .next t ∧ t.readV x = b ∧ (∀ r, r ≠ x → t.readV r = s.readV r) ∧ t.pc = s.pc + 2#12 ∧
      Unchanged [.v, .pc] s t := by
  refine ⟨_, h, ?_, ?_, ?_, s.unchanged_writeV_advance x b⟩
  · simp
  · exact fun r hr => s.readV_writeV_ne b hr
  · simp [pcPlus]

/-- The flag is written last, so it wins when `x` = 15 (R100(b), (c)). -/
theorem exists_next_of_exec_eq_writeResultThenFlag {i : Instr} {s : State} {x : RegIx} {result : Byte} {flag : Bool}
    (h : exec i s = .next (s.writeResultThenFlag x result flag).advance) :
    ∃ t, exec i s = .next t ∧ (x ≠ vf → t.readV x = result) ∧ t.readV vf = flagByte flag ∧
      (∀ r, r ≠ x → r ≠ vf → t.readV r = s.readV r) ∧ t.pc = s.pc + 2#12 ∧ Unchanged [.v, .pc] s t := by
  refine ⟨_, h, ?_, ?_, ?_, ?_, s.unchanged_writeResultThenFlag_advance x result flag⟩
  · intro hx
    simp [State.readV_writeV_ne _ _ hx]
  · simp
  · intro r hx hvf
    simp [State.readV_writeV_ne _ _ hx, State.readV_writeV_ne _ _ hvf]
  · simp [pcPlus]

/-! ### Results and flags as numbers -/

theorem toNat_sub_eq_int_emod (a b : Byte) : ((a - b).toNat : Int) = (a.toNat - b.toNat : Int) % 256 := by
  rw [BitVec.toNat_sub]
  omega

theorem flagByte_decide (c : Prop) [Decidable c] : flagByte (decide c) = if c then 1 else 0 := by
  by_cases h : c <;> simp [h, flagByte]

theorem flagByte_toNat (b : Bool) : (flagByte b).toNat = b.toNat := by
  cases b <;> rfl

/-- The bit a right shift moves out is the remainder by 2. -/
theorem shrOut_toNat (a : Byte) : (shrOut a).toNat = a.toNat % 2 := by
  rw [shrOut, BitVec.getLsbD, Nat.toNat_testBit, Nat.pow_zero, Nat.div_one]

/-- The bit a left shift moves out is the quotient by 128, since a byte has no higher bit. -/
theorem shlOut_toNat (a : Byte) : (shlOut a).toNat = a.toNat / 128 := by
  rw [shlOut, BitVec.getLsbD, Nat.toNat_testBit]
  omega

/-! ### The two subtractions -/

/-- What both subtractions do, `a` the minuend and `b` the subtrahend (R108, R110). -/
theorem exists_next_of_exec_eq_difference {i : Instr} {s : State} {x : RegIx} {a b : Byte}
    (h : exec i s = .next (s.writeResultThenFlag x (a - b) (noBorrow a b)).advance) :
    ∃ t, exec i s = .next t ∧ (x ≠ vf → ((t.readV x).toNat : Int) = (a.toNat - b.toNat : Int) % 256) ∧
      t.readV vf = (if a.toNat ≥ b.toNat then 1 else 0) ∧
      (∀ r, r ≠ x → r ≠ vf → t.readV r = s.readV r) ∧ t.pc = s.pc + 2#12 ∧ Unchanged [.v, .pc] s t := by
  obtain ⟨t, ht, hresult, hflag, hframe⟩ := exists_next_of_exec_eq_writeResultThenFlag h
  refine ⟨t, ht, fun hx => ?_, ?_, hframe⟩
  · rw [hresult hx, toNat_sub_eq_int_emod]
  · rw [hflag, noBorrow, flagByte_decide]

/-! ### The obligations -/

/-- Settles O29: the carry is the comparison of the unbounded sum, and the result the sum of the two bytes. -/
theorem addSetsCarry : Obligations.AddSetsCarry := by
  intro x y s
  refine ⟨Laws.RoundTrip.addReg x y rfl, ?_⟩
  obtain ⟨t, ht, hresult, hflag, hframe⟩ :=
    exists_next_of_exec_eq_writeResultThenFlag (rfl : exec (.addReg x y) s = _)
  refine ⟨t, ht, fun hx => ?_, ?_, hframe⟩
  · rw [hresult hx, BitVec.toNat_add]
  · rw [hflag, addCarry, flagByte_decide]

/-- Settles O30: both instructions write a difference and its no-borrow, with the operands in either order. -/
theorem subtractSetsNoBorrow : Obligations.SubtractSetsNoBorrow := by
  intro x y s
  refine ⟨Laws.RoundTrip.sub x y rfl, Laws.RoundTrip.subn x y rfl, ?_, ?_⟩
  · exact exists_next_of_exec_eq_difference rfl
  · exact exists_next_of_exec_eq_difference rfl

/-- Settles O31: a shift by one is a division or a multiplication by 2, and the bit moved out the remainder or the overflow. -/
theorem shiftsMoveOneBit : Obligations.ShiftsMoveOneBit := by
  intro x y s
  refine ⟨Laws.RoundTrip.shr x y rfl, Laws.RoundTrip.shl x y rfl, ?_, ?_⟩
  · obtain ⟨t, ht, hresult, hflag, hframe⟩ :=
      exists_next_of_exec_eq_writeResultThenFlag (rfl : exec (.shr x y) s = _)
    refine ⟨t, ht, fun hx => ?_, ?_, hframe⟩
    · rw [hresult hx, BitVec.toNat_ushiftRight, Nat.shiftRight_one]
    · rw [hflag, flagByte_toNat, shrOut_toNat]
  · obtain ⟨t, ht, hresult, hflag, hframe⟩ :=
      exists_next_of_exec_eq_writeResultThenFlag (rfl : exec (.shl x y) s = _)
    refine ⟨t, ht, fun hx => ?_, ?_, hframe⟩
    · rw [hresult hx, BitVec.toNat_shiftLeft, Nat.shiftLeft_eq]
    · rw [hflag, flagByte_toNat, shlOut_toNat]

/-- Settles O26: each load is one register write, and its word decodes by class, or class and last digit. -/
theorem registerLoads : Obligations.RegisterLoads := by
  intro x y kk s
  refine ⟨Laws.RoundTrip.ldByte x kk rfl, Laws.RoundTrip.ldReg x y rfl, ?_, ?_⟩
  · exact exists_next_of_exec_eq_writeV rfl
  · exact exists_next_of_exec_eq_writeV rfl

end Sys2Proof.Machine
end

section
/-! PROOFS. Clearing the screen and switching the resolution (spec/43_display.md R140 to R142): what a write to the framebuffer
leaves unchanged, and what a switch to a given mode leaves behind. -/

namespace Sys2Proof.Machine

/-- A write to the framebuffer sets `DIRTY` (R23), advances `PC` and writes nothing else. -/
theorem State.unchanged_show (s : State) (g : Grid) : Unchanged [.fb, .dirty, .pc] s (s.show g) := by
  intro it hit
  cases it with
  | fb | dirty | pc => simp at hit
  | _ => simp [Item.same]

theorem State.unchanged_setMode (s : State) (m : Mode) : Unchanged [.mode] s { s with mode := m } := by
  intro it hit
  cases it with
  | mode => simp at hit
  | v | mem => exact fun _ => rfl
  | fb => exact fun _ _ => rfl
  | _ => rfl

/-- What an instruction that shows the blank grid in mode `m` leaves behind: the geometry is that of `m`, whatever the mode
was before (R24). -/
theorem exists_next_of_exec_eq_switchMode {i : Instr} {s : State} {m : Mode}
    (h : exec i s = .next ({ s with mode := m }.show blank)) :
    ∃ t, exec i s = .next t ∧ t.mode = m ∧ (∀ x y, t.pixelAt x y = false) ∧
      t.width = (if s.cfg.loresDoubled then 128 else logicalWidth m) ∧
      t.height = (if s.cfg.loresDoubled then 64 else logicalHeight m) ∧
      t.dirty = true ∧ t.pc = s.pc + 2#12 ∧ Unchanged [.mode, .fb, .dirty, .pc] s t :=
  have frame : Unchanged [.mode, .fb, .dirty, .pc] s ({ s with mode := m }.show blank) :=
    ((s.unchanged_setMode m).mono (by simp)).trans ((State.unchanged_show _ blank).mono (by simp))
  ⟨_, h, rfl, pixel_blank, rfl, rfl, rfl, rfl, frame⟩

/-- Settles O41: `CLS` shows the blank grid, every cell of which is off. -/
theorem clearScreen : Obligations.ClearScreen :=
  ⟨Laws.RoundTrip.cls rfl, fun s => ⟨s.show blank, rfl, pixel_blank, rfl, rfl, s.unchanged_show blank⟩⟩

/-- Settles O42: both instructions are a switch to their mode; High mode has one size under both settings of `LORES_DOUBLED`. -/
theorem modeSwitchClears : Obligations.ModeSwitchClears := by
  refine ⟨Laws.RoundTrip.low rfl, Laws.RoundTrip.high rfl, fun s => ⟨?_, ?_⟩⟩
  · exact exists_next_of_exec_eq_switchMode rfl
  · obtain ⟨t, ht, hmode, hoff, hwidth, hheight, hframe⟩ := exists_next_of_exec_eq_switchMode (rfl : exec .high s = _)
    exact ⟨t, ht, hmode, hoff, hwidth.trans (ite_self 128), hheight.trans (ite_self 64), hframe⟩

end Sys2Proof.Machine
end

section
/-! PROOFS. The timer instructions (spec/44_keys_timers.md R163 to R165): a write of one timer leaves everything else unchanged,
and an instruction that goes on at `PC` + 2 adds `PC` alone to what it has written. -/

namespace Sys2Proof.Machine

/-- What was written before an advance, and `PC`, is all that is written after it. -/
theorem Unchanged.advance {l : List Item} {s t : State} (h : Unchanged l s t) : Unchanged (l ++ [.pc]) s t.advance :=
  (h.mono (List.subset_append_left l _)).trans ((t.unchanged_jumpTo _).mono (List.subset_append_right l _))

theorem State.unchanged_setDt (s : State) (b : Byte) : Unchanged [.dt] s { s with dt := b } := by
  intro it hit
  cases it with
  | dt => simp at hit
  | v | mem => exact fun _ => rfl
  | fb => exact fun _ _ => rfl
  | _ => rfl

theorem State.unchanged_setSt (s : State) (b : Byte) : Unchanged [.st] s { s with st := b } := by
  intro it hit
  cases it with
  | st => simp at hit
  | v | mem => exact fun _ => rfl
  | fb => exact fun _ _ => rfl
  | _ => rfl

/-- `SOUND_ON` is the sound timer's being nonzero (R18). -/
theorem State.soundOn_iff (s : State) : s.soundOn = true ↔ s.st ≠ 0 :=
  decide_eq_true_iff

/-- Settles O53: `Fx07` is a register write and the other two a timer write, each followed by an advance; `SOUND_ON` is read from
the `ST` just written. -/
theorem timerTransfers : Obligations.TimerTransfers := by
  intro x s
  refine ⟨Laws.RoundTrip.ldVxDt x rfl, Laws.RoundTrip.ldDtVx x rfl, Laws.RoundTrip.ldStVx x rfl, ?_, ?_, ?_⟩
  · exact exists_next_of_exec_eq_writeV rfl
  · exact ⟨_, rfl, rfl, rfl, (s.unchanged_setDt _).advance⟩
  · exact ⟨_, rfl, rfl, State.soundOn_iff _, rfl, (s.unchanged_setSt _).advance⟩

end Sys2Proof.Machine
end

section
/-! PROOFS. The host operations that write one register (spec/70_reset_and_hazards.md R196 to R198): each leaves every other item
unchanged, in any state, since none of them looks at the fault record (R176). -/

namespace Sys2Proof.Machine

/-- The latch is written whole and alone (R196). -/
theorem State.unchanged_setKeys (s : State) (k : Vector Bool 16) : Unchanged [.key] s (s.setKeys k) := by
  intro it hit
  cases it with
  | key => simp at hit
  | _ => simp [Item.same]

theorem State.unchanged_clearDirty (s : State) : Unchanged [.dirty] s s.clearDirty := by
  intro it hit
  cases it with
  | dirty => simp at hit
  | _ => simp [Item.same]

theorem State.unchanged_requestExit (s : State) : Unchanged [.exit] s s.requestExit := by
  intro it hit
  cases it with
  | exit => simp at hit
  | _ => simp [Item.same]

/-- Settles O55: each operation answers its own register's write, whose frame is everything else. -/
theorem hostWritesOneRegister : Obligations.HostWritesOneRegister := by
  intro k s
  refine ⟨?_, ?_, ?_⟩
  · exact ⟨s.setKeys k, rfl, fun _ => by rw [State.setKeys_key], s.unchanged_setKeys k⟩
  · exact ⟨s.clearDirty, rfl, s.clearDirty_dirty, s.unchanged_clearDirty⟩
  · exact ⟨s.requestExit, rfl, s.requestExit_exit, s.unchanged_requestExit⟩

end Sys2Proof.Machine
end

section
/-! PROOFS. Decoder and encoder are inverse to each other on well-formed instructions and recognized words
(spec/30_encoding.md R60 to R66), and the words outside the table (R67). -/

namespace Sys2Proof

/-! ### From the instruction to its word and back -/

open Laws.RoundTrip in
/-- The round trip of every constructor. -/
theorem decodeWord_encode : ∀ i : Instr, Statement i
  | .scd n => scd n
  | .cls => cls
  | .ret => ret
  | .scr => scr
  | .scl => scl
  | .exit => exit
  | .low => low
  | .high => high
  | .jp addr => jp addr
  | .call addr => call addr
  | .seByte x kk => seByte x kk
  | .sneByte x kk => sneByte x kk
  | .seReg x y => seReg x y
  | .ldByte x kk => ldByte x kk
  | .addByte x kk => addByte x kk
  | .ldReg x y => ldReg x y
  | .orReg x y => orReg x y
  | .andReg x y => andReg x y
  | .xorReg x y => xorReg x y
  | .addReg x y => addReg x y
  | .sub x y => sub x y
  | .shr x y => shr x y
  | .subn x y => subn x y
  | .shl x y => shl x y
  | .sneReg x y => sneReg x y
  | .ldI addr => ldI addr
  | .jpV0 addr => jpV0 addr
  | .rnd x kk => rnd x kk
  | .drw x y n => drw x y n
  | .drwWide x y => drwWide x y
  | .skp x => skp x
  | .sknp x => sknp x
  | .ldVxDt x => ldVxDt x
  | .ldVxK x => ldVxK x
  | .ldDtVx x => ldDtVx x
  | .ldStVx x => ldStVx x
  | .addI x => addI x
  | .ldF x => ldF x
  | .ldHf x => ldHf x
  | .ldB x => ldB x
  | .storeRegs x => storeRegs x
  | .loadRegs x => loadRegs x
  | .saveFlags x => saveFlags x
  | .loadFlags x => loadFlags x

/-- Settles O1, constructor by constructor. -/
theorem decodeOfEncodeIsIdentity : Obligations.DecodeOfEncodeIsIdentity := decodeWord_encode

/-! ### From the word to its instruction and back

A row of R66 fixes some fields of a word; the word is the row's pattern with the other fields put in. -/

/-- `w` is the word of the well-formed instruction `i`. -/
def IsWordOf (w : Word) (i : Instr) : Prop := encode i = w ∧ i.wf = true

/-- One entry of a dispatch on a sub-field: it is this row, or one of the rows after it. -/
theorem isWordOf_of_ite {w : Word} {i j : Instr} {p : Prop} [Decidable p] {rest : Option Instr}
    (hrow : p → IsWordOf w j) (hrest : rest = some i → IsWordOf w i) (h : (if p then some j else rest) = some i) :
    IsWordOf w i := by
  split at h
  · cases h; exact hrow ‹p›
  · exact hrest h

section
variable {w : Word} {i : Instr} {c : Nibble}

theorem wordOfAddr_eq (hc : (fieldsOf w).cls = c) : wordOfAddr c (fieldsOf w).addr = w :=
  hc ▸ wordOfAddr_fieldsOf w

theorem wordOfByte_eq {kk : Byte} (hc : (fieldsOf w).cls = c) (hk : (fieldsOf w).kk = kk) :
    wordOfByte c (fieldsOf w).x kk = w :=
  hc ▸ hk ▸ wordOfByte_fieldsOf w

theorem wordOfNibbles_eq {n : Nibble} (hc : (fieldsOf w).cls = c) (hn : (fieldsOf w).n = n) :
    wordOfNibbles c (fieldsOf w).x (fieldsOf w).y n = w :=
  hc ▸ hn ▸ wordOfNibbles_fieldsOf w

/-- The upper two digits of the field `addr` are the fields `x` and `y` (R61). -/
theorem addr_extract_eq (w : Word) :
    (fieldsOf w).addr.extractLsb' 4 8 = BitVec.ofFin (w := 4) (fieldsOf w).x ++ BitVec.ofFin (w := 4) (fieldsOf w).y := by
  ext k hk
  rw [BitVec.getElem_append]
  simp only [fieldsOf, BitVec.ofFin_toFin, BitVec.getElem_extractLsb', BitVec.getLsbD_extractLsb']
  split
  · simp [*, show 4 + k < 12 by omega]
  · simp [show 8 + (k - 4) = 4 + k by omega, show 4 + k < 12 by omega]

/-- R66, class 0x0: `00Cn`, and seven words with no field left. -/
theorem isWordOf_of_decodeClass0 (hc : (fieldsOf w).cls = 0x0#4) :
    decodeClass0 (fieldsOf w) = some i → IsWordOf w i := by
  have fixed : ∀ {j : Instr} {a : Addr}, IsWordOf (wordOfAddr 0x0#4 a) j → (fieldsOf w).addr = a → IsWordOf w j :=
    fun hj ha => by rwa [← ha, wordOfAddr_eq hc] at hj
  refine isWordOf_of_ite (fun ha => ?_) ?_
  · have digits : ∀ x y : RegIx, BitVec.ofFin (w := 4) x ++ BitVec.ofFin (w := 4) y = 0x0C#8 → x = 0x0 ∧ y = 0xC := by decide
    obtain ⟨hx, hy⟩ := digits _ _ ((addr_extract_eq w).symm.trans ha)
    have hw := wordOfNibbles_eq hc rfl
    rw [hx, hy] at hw
    exact ⟨hw, rfl⟩
  · repeat refine isWordOf_of_ite (fixed ⟨rfl, rfl⟩) ?_
    exact nofun

theorem isWordOf_of_decodeClass8 (hc : (fieldsOf w).cls = 0x8#4) :
    decodeClass8 (fieldsOf w) = some i → IsWordOf w i := by
  repeat refine isWordOf_of_ite (fun hn => ⟨wordOfNibbles_eq hc hn, rfl⟩) ?_
  exact nofun

theorem isWordOf_of_decodeClassE (hc : (fieldsOf w).cls = 0xE#4) :
    decodeClassE (fieldsOf w) = some i → IsWordOf w i := by
  repeat refine isWordOf_of_ite (fun hk => ⟨wordOfByte_eq hc hk, rfl⟩) ?_
  exact nofun

theorem isWordOf_of_decodeClassF (hc : (fieldsOf w).cls = 0xF#4) :
    decodeClassF (fieldsOf w) = some i → IsWordOf w i := by
  repeat refine isWordOf_of_ite (fun hk => ⟨wordOfByte_eq hc hk, rfl⟩) ?_
  exact nofun

end

/-- Settles O2: the dispatch on the class, and in six classes on a sub-field, leaves the fields that rebuild the word. -/
theorem encodeOfDecodeIsIdentity : Obligations.EncodeOfDecodeIsIdentity := by
  intro w i h
  unfold decodeWord decodeFields at h
  split at h
  next hc => exact isWordOf_of_decodeClass0 hc h
  next hc => cases h; exact ⟨wordOfAddr_eq hc, rfl⟩
  next hc => cases h; exact ⟨wordOfAddr_eq hc, rfl⟩
  next hc => cases h; exact ⟨wordOfByte_eq hc rfl, rfl⟩
  next hc => cases h; exact ⟨wordOfByte_eq hc rfl, rfl⟩
  next hc => split_ifs at h with hn; cases h; exact ⟨wordOfNibbles_eq hc hn, rfl⟩
  next hc => cases h; exact ⟨wordOfByte_eq hc rfl, rfl⟩
  next hc => cases h; exact ⟨wordOfByte_eq hc rfl, rfl⟩
  next hc => exact isWordOf_of_decodeClass8 hc h
  next hc => split_ifs at h with hn; cases h; exact ⟨wordOfNibbles_eq hc hn, rfl⟩
  next hc => cases h; exact ⟨wordOfAddr_eq hc, rfl⟩
  next hc => cases h; exact ⟨wordOfAddr_eq hc, rfl⟩
  next hc => cases h; exact ⟨wordOfByte_eq hc rfl, rfl⟩
  next hc =>
    split at h <;> cases h
    · exact ⟨wordOfNibbles_eq hc ‹_›, rfl⟩
    · exact ⟨wordOfNibbles_eq hc rfl, by simp [Instr.wf, Instr.illFormed, *]⟩
  next hc => exact isWordOf_of_decodeClassE hc h
  next hc => exact isWordOf_of_decodeClassF hc h
  next => cases h

/-! ### The unrecognized words -/

theorem fieldsOf_cls_toNat (w : Word) : (fieldsOf w).cls.toNat = w.toNat / 4096 := by
  simp only [fieldsOf, BitVec.extractLsb'_toNat, Nat.shiftRight_eq_div_pow]
  omega

theorem fieldsOf_n_toNat (w : Word) : (fieldsOf w).n.toNat = w.toNat % 16 := by
  simp [fieldsOf, BitVec.extractLsb'_toNat]

theorem fieldsOf_kk_toNat (w : Word) : (fieldsOf w).kk.toNat = w.toNat % 256 := by
  simp [fieldsOf, BitVec.extractLsb'_toNat]

theorem fieldsOf_addr_toNat (w : Word) : (fieldsOf w).addr.toNat = w.toNat % 4096 := by
  simp [fieldsOf, BitVec.extractLsb'_toNat]

/-- A dispatch on a sub-field leaves a value out when no entry has it. -/
theorem ite_some_eq_none {α : Type} {p : Prop} [Decidable p] {a : α} {rest : Option α} :
    (if p then some a else rest) = none ↔ ¬p ∧ rest = none := by
  by_cases h : p <;> simp [h]

theorem decodeClass0_eq_none (f : Fields) :
    decodeClass0 f = none ↔ f.addr.toNat / 16 ≠ 0x0C ∧
      f.addr.toNat ∉ [0x00E0, 0x00EE, 0x00FB, 0x00FC, 0x00FD, 0x00FE, 0x00FF] := by
  have h : f.addr.extractLsb' 4 8 = 0x0C#8 ↔ f.addr.toNat / 16 = 0x0C := by
    have : f.addr.toNat < 4096 := f.addr.isLt
    rw [← BitVec.toNat_inj, BitVec.extractLsb'_toNat, Nat.shiftRight_eq_div_pow]
    simp
    omega
  simp [decodeClass0, ite_some_eq_none, h, ← BitVec.toNat_inj]

theorem decodeClass8_eq_none (f : Fields) :
    decodeClass8 f = none ↔ f.n.toNat ∈ [0x8, 0x9, 0xA, 0xB, 0xC, 0xD, 0xF] := by
  have : f.n.toNat < 16 := f.n.isLt
  simp [decodeClass8, ite_some_eq_none, ← BitVec.toNat_inj]
  omega

theorem decodeClassE_eq_none (f : Fields) : decodeClassE f = none ↔ f.kk.toNat ∉ [0x9E, 0xA1] := by
  simp [decodeClassE, ite_some_eq_none, ← BitVec.toNat_inj]

theorem decodeClassF_eq_none (f : Fields) :
    decodeClassF f = none ↔
      f.kk.toNat ∉ [0x07, 0x0A, 0x15, 0x18, 0x1E, 0x29, 0x30, 0x33, 0x55, 0x65, 0x75, 0x85] := by
  simp [decodeClassF, ite_some_eq_none, ← BitVec.toNat_inj]

/-- R67 on the fields: six classes have unmatched combinations. -/
theorem decodeFields_eq_none (f : Fields) :
    decodeFields f = none ↔
      (f.cls.toNat = 0x0 ∧ decodeClass0 f = none) ∨ (f.cls.toNat = 0x5 ∧ f.n.toNat ≠ 0) ∨
      (f.cls.toNat = 0x8 ∧ decodeClass8 f = none) ∨ (f.cls.toNat = 0x9 ∧ f.n.toNat ≠ 0) ∨
      (f.cls.toNat = 0xE ∧ decodeClassE f = none) ∨ (f.cls.toNat = 0xF ∧ decodeClassF f = none) := by
  have hn : f.n = 0x0#4 ↔ f.n.toNat = 0 := BitVec.toNat_inj.symm
  have hdraw : (if f.n.toNat = 0 then some (Instr.drwWide f.x f.y) else some (Instr.drw f.x f.y f.n)) ≠ none := by
    split <;> simp
  obtain ⟨⟨c⟩, x, y, n, kk, addr⟩ := f
  unfold decodeFields
  fin_cases c <;> simp_all [ite_some_eq_none]

/-- Settles O3: the fields are digits of the word, and each class has its own list. -/
theorem unrecognizedWordsExactly : Obligations.UnrecognizedWordsExactly := by
  intro w
  rw [decodeWord, decodeFields_eq_none, decodeClass0_eq_none, decodeClass8_eq_none, decodeClassE_eq_none,
    decodeClassF_eq_none, fieldsOf_cls_toNat, fieldsOf_n_toNat, fieldsOf_kk_toNat, fieldsOf_addr_toNat]
  refine or_congr_left (and_congr_right fun h0 => ?_)
  rw [Nat.mod_eq_of_lt (by omega)]
  exact and_congr_left fun _ => by omega

/-- Settles O4: each word is a closed term. -/
theorem sampleWordsDecode : Obligations.SampleWordsDecode := by
  unfold Obligations.SampleWordsDecode
  decide

end Sys2Proof
end

section
/-! PROOFS. The frames of the basic updates that have none yet: what each leaves unchanged (spec/10_state.md R10). -/

namespace Sys2Proof.Machine

theorem State.unchanged_setMem (s : State) (m : Memory) : Unchanged [.mem] s { s with mem := m } := by
  intro it hit
  cases it with
  | mem => simp at hit
  | v => exact fun _ => rfl
  | fb => exact fun _ _ => rfl
  | _ => rfl

theorem State.unchanged_setV (s : State) (v : Vector Byte 16) : Unchanged [.v] s { s with v := v } := by
  intro it hit
  cases it with
  | v => simp at hit
  | mem => exact fun _ => rfl
  | fb => exact fun _ _ => rfl
  | _ => rfl

theorem State.unchanged_setErr (s : State) (e : ErrRecord) : Unchanged [.err] s { s with err := e } := by
  intro it hit
  cases it with
  | err => simp at hit
  | v | mem => exact fun _ => rfl
  | fb => exact fun _ _ => rfl
  | _ => rfl

theorem State.unchanged_setWaiting (s : State) (b : Bool) : Unchanged [.waiting] s { s with waiting := b } := by
  intro it hit
  cases it with
  | waiting => simp at hit
  | v | mem => exact fun _ => rfl
  | fb => exact fun _ _ => rfl
  | _ => rfl

theorem State.unchanged_writeI (s : State) (w : Word) : Unchanged [.i] s (s.writeI w) := by
  intro it hit
  cases it with
  | i => simp at hit
  | _ => simp [Item.same]

theorem State.unchanged_rndUsed (s : State) : Unchanged [.rnd] s s.rndUsed := by
  intro it hit
  cases it with
  | rnd => simp at hit
  | _ => simp [Item.same]

theorem State.unchanged_saveToFlags (s : State) : Unchanged [.flags] s s.saveToFlags := by
  intro it hit
  cases it with
  | flags => simp at hit
  | _ => simp [Item.same]

theorem State.unchanged_push (s : State) (a : Addr) : Unchanged [.stack, .sp] s (s.push a) := by
  intro it hit
  cases it with
  | stack | sp => simp at hit
  | _ => simp [Item.same]

theorem State.unchanged_pop (s : State) : Unchanged [.sp] s s.pop := by
  intro it hit
  cases it with
  | sp => simp at hit
  | _ => simp [Item.same]

theorem State.unchanged_tick (s : State) : Unchanged [.dt, .st] s s.tick := by
  intro it hit
  cases it with
  | dt | st => simp at hit
  | _ => simp [Item.same]

theorem State.unchanged_writeByte (s : State) (a : Nat) (w : Byte) : Unchanged [.mem] s (s.writeByte a w) :=
  s.unchanged_setMem _

theorem State.unchanged_storeAtI (s : State) (l : List Byte) : Unchanged [.mem] s (s.storeAtI l) := by
  rw [State.storeAtI_eq]
  exact s.unchanged_setMem _

theorem State.unchanged_writeFold (s : State) (f : RegIx → Byte) (l : List RegIx) :
    Unchanged [.v] s (l.foldl (fun u r => u.writeV r (f r)) s) := by
  rw [State.writeFold_eq]
  exact s.unchanged_setV _

theorem State.unchanged_loadFromFlags (s : State) : Unchanged [.v] s s.loadFromFlags := by
  rw [State.loadFromFlags_eq]
  exact s.unchanged_setV _

/-- A draw writes the flag, the framebuffer, `DIRTY` and `PC` (R146). -/
theorem State.unchanged_draw (s : State) (x y : RegIx) (cells : List (Nat × Nat)) :
    Unchanged [.fb, .v, .dirty, .pc] s (s.draw x y cells) :=
  ((s.unchanged_writeV _ _).mono (by simp)).trans ((State.unchanged_show _ _).mono (by simp))

end Sys2Proof.Machine
end

section
/-! PROOFS. The step and its faults (spec/30_encoding.md R64, spec/60_exceptions.md), the placing of a word (log entry 8), and
single writes of memory (spec/20_memory.md). -/

namespace Sys2Proof.Machine

/-! ### The step -/

/-- Settles O5: the two bytes are the fetched word. -/
theorem stepRunsDecodedInstruction : Obligations.StepRunsDecodedInstruction := by
  intro s i he hi
  exact step_of_decode he (by rw [fetchWord_eq, hi])

/-- Settles O6: the record holds the fetched word, which is the word of the two bytes. -/
theorem unrecognizedWordFaults : Obligations.UnrecognizedWordFaults := by
  intro s w he hw hn
  rw [← fetchWord_eq] at hw
  subst hw
  exact ⟨_, step_of_unrecognized he hn, rfl, rfl, s.unchanged_setErr _⟩

/-- Settles O7. -/
theorem haltedStepChangesNothing : Obligations.HaltedStepChangesNothing := by
  intro s h
  exact ⟨step_of_halted h, by simp [State.result, State.halted, h]⟩

/-- Only three instructions branch, and each branch answers a next state. -/
theorem exec_total (i : Instr) (s : State) : ∃ t, exec i s = .next t := by
  cases i with
  | ret =>
    by_cases h : s.sp = 0
    · exact ⟨_, execRet_empty h⟩
    · exact ⟨_, execRet_of_ne h⟩
  | call addr =>
    by_cases h : s.sp = 15
    · exact ⟨_, execCall_full addr h⟩
    · exact ⟨_, execCall_of_ne addr h⟩
  | ldVxK x =>
    cases h : s.firstKey with
    | none => exact ⟨_, execLdVxK_of_none x h⟩
    | some k => exact ⟨_, execLdVxK_of_key x h⟩
  | _ => exact ⟨_, rfl⟩

theorem step_total (s : State) : ∃ t, step s = .next t := by
  by_cases he : s.err.code = .none
  · cases hi : decodeWord (fetchWord s) with
    | none => exact ⟨_, step_of_unrecognized he hi⟩
    | some i =>
      rw [step_of_decode he hi]
      exact exec_total i s
  · exact ⟨s, step_of_halted he⟩

/-- Settles O8. -/
theorem everyStepAnswersNextState : Obligations.EveryStepAnswersNextState := ⟨exec_total, step_total⟩

/-! ### A placed word -/

/-- The word placed at `PC` is the one fetched: its two addresses differ, also behind the wrap. -/
theorem fetchWord_placeWord (s : State) (w : Word) : fetchWord (placeWord s w) = w := by
  have hpc : (placeWord s w).pc = s.pc := by simp only [placeWord, State.writeByte_pc]
  have hlt : s.pc.toNat < 4096 := s.pc.isLt
  have hne : s.pc.toNat ≠ (s.pc.toNat + 1) % 4096 := by omega
  rw [fetchWord, hpc, placeWord_readByte, placeWord_readByte, if_neg (by rwa [Nat.mod_eq_of_lt hlt]),
    if_pos (Nat.mod_eq_of_lt hlt), if_pos rfl, wordOfBytes_hi_lo]

theorem State.unchanged_placeWord (s : State) (w : Word) : Unchanged [.mem, .err] s (placeWord s w) :=
  (((s.unchanged_writeByte _ _).trans (State.unchanged_writeByte _ _ _)).mono (by simp)).trans
    ((State.unchanged_setErr _ _).mono (by simp))

/-- Settles O9: the placed machine is not halted and fetches the word. -/
theorem placedWordIsRunNext : Obligations.PlacedWordIsRunNext := by
  intro s w i hi
  rw [State.withFetchWord, tableWord_toNat]
  refine ⟨step_of_decode rfl (by rw [fetchWord_placeWord, hi]), s.unchanged_placeWord w, fun a hhi hlo => ?_⟩
  rw [placeWord_readByte, if_neg hlo, if_neg hhi]

/-- Settles O10. -/
theorem readAfterWrite : Obligations.ReadAfterWrite :=
  fun s a b w => ⟨s.readByte_writeByte a b w, s.unchanged_writeByte a w⟩

end Sys2Proof.Machine
end

section
/-! PROOFS. Jumps, calls, returns and `EXIT` (spec/40_flow.md R80 to R83, R88), with the two stack faults (R172, R173). -/

namespace Sys2Proof.Machine

/-- Settles O19: each jump is one write of `PC`. -/
theorem jumpsReplacePc : Obligations.JumpsReplacePc := by
  intro addr s
  refine ⟨⟨_, rfl, rfl, s.unchanged_jumpTo addr⟩, rfl, ⟨_, rfl, ?_, s.unchanged_jumpTo _⟩⟩
  simp [offsetTarget]

/-- Settles O20: `SP` below 15 does not overflow, and the push writes one slot. -/
theorem callPushesItsOwnAddress : Obligations.CallPushesItsOwnAddress := by
  intro addr s h
  refine ⟨_, execCall_of_ne addr h, rfl, ?_, fun k => ?_, ?_⟩
  · simp
    bv_omega
  · simp [Vector.getElem_set, eq_comm]
  · exact ((s.unchanged_push s.pc).mono (by simp)).trans ((State.unchanged_jumpTo _ _).mono (by simp))

/-- Settles O21: the entry the pop exposes is the one below `SP`. -/
theorem returnResumesAfterTheCall : Obligations.ReturnResumesAfterTheCall := by
  intro s k h
  obtain ⟨hsp, htop⟩ := State.stackAt_pop h
  have h0 : s.sp ≠ 0 := by rintro h0; simp [h0] at h
  refine ⟨_, execRet_of_ne h0, hsp, ?_, ?_⟩
  · simp [htop, pcPlus]
  · exact ((s.unchanged_pop).mono (by simp)).trans ((State.unchanged_jumpTo _ _).mono (by simp))

/-- Settles O22: the faulting word is the instruction's own. -/
theorem stackFaultsWriteOnlyErr : Obligations.StackFaultsWriteOnlyErr :=
  ⟨fun addr s h => ⟨_, execCall_full addr h, rfl, s.unchanged_setErr _⟩,
    fun s h => ⟨_, execRet_empty h, rfl, s.unchanged_setErr _⟩⟩

/-- Settles O23: the `RET` finds at its `SP` what the `CALL` stored there. -/
theorem callThenReturn : Obligations.CallThenReturn := by
  intro addr s h
  obtain ⟨t, ht, -, htsp, htstack, hst⟩ := callPushesItsOwnAddress addr s h
  obtain ⟨u, hu, husp, hupc, htu⟩ := returnResumesAfterTheCall t s.sp.toFin htsp
  have hsp : u.sp = s.sp := BitVec.eq_of_toNat_eq husp
  refine ⟨t, u, ht, hu, ?_, hsp, fun it hit => ?_⟩
  · simp [hupc, htstack]
  · by_cases h : it = .sp
    · subst h; exact hsp
    · exact hst.trans (htu.mono (by simp)) it (by simp_all)

/-- Settles O25: the flag is the one `request_exit` sets (R198). -/
theorem exitSetsTheFlagAndGoesOn : Obligations.ExitSetsTheFlagAndGoesOn :=
  fun s => ⟨_, rfl, rfl, rfl, s.unchanged_requestExit.advance⟩

end Sys2Proof.Machine
end

section
/-! PROOFS. Addition of a byte, logic and the random byte (spec/41_alu.md R102, R104 to R106, R112): one register write, whose value
is read as a number or bit by bit. -/

namespace Sys2Proof.Machine

/-- Settles O27: the sum of two bytes is the sum modulo 256. -/
theorem addByteWrapsWithoutFlag : Obligations.AddByteWrapsWithoutFlag := by
  intro x kk s
  obtain ⟨t, ht, hx, hframe⟩ := exists_next_of_exec_eq_writeV (rfl : exec (.addByte x kk) s = _)
  exact ⟨t, ht, by rw [hx, BitVec.toNat_add], hframe⟩

/-- An instruction that writes one register, its result known bit by bit. -/
theorem exists_next_of_exec_eq_writeV_bits {i : Instr} {s : State} {x : RegIx} {b : Byte} {f : Nat → Bool}
    (hb : ∀ k, b.getLsbD k = f k) (h : exec i s = .next (s.writeV x b).advance) :
    ∃ t, exec i s = .next t ∧ (∀ k, (t.readV x).getLsbD k = f k) ∧ (∀ r, r ≠ x → t.readV r = s.readV r) ∧
      t.pc = s.pc + 2#12 ∧ Unchanged [.v, .pc] s t := by
  obtain ⟨t, ht, hx, hframe⟩ := exists_next_of_exec_eq_writeV h
  exact ⟨t, ht, fun k => by rw [hx, hb], hframe⟩

/-- Settles O28: each operation on bytes is the one on their bits. -/
theorem logicIsBitwiseWithoutFlag : Obligations.LogicIsBitwiseWithoutFlag := by
  intro x y s
  refine ⟨?_, ?_, ?_⟩
  · exact exists_next_of_exec_eq_writeV_bits (fun _ => BitVec.getLsbD_or) rfl
  · exact exists_next_of_exec_eq_writeV_bits (fun _ => BitVec.getLsbD_and) rfl
  · exact exists_next_of_exec_eq_writeV_bits (fun _ => BitVec.getLsbD_xor) rfl

/-- Settles O32: the mask is a bitwise `AND`, and the draw counter moves by one. -/
theorem randomByteUnderMask : Obligations.RandomByteUnderMask := by
  intro x kk s
  refine ⟨_, rfl, fun k => ?_, rfl, fun r hr => ?_, rfl, ?_⟩
  · simp [rndMasked, State.rnd]
  · simp [rndMasked, State.readV_writeV_ne _ _ hr]
  · exact ((s.unchanged_writeV_advance x _).mono (by simp)).trans ((State.unchanged_rndUsed _).mono (by simp))

end Sys2Proof.Machine
end

section
/-! PROOFS. The index register (spec/42_index_memory.md R120 to R123). -/

namespace Sys2Proof.Machine

theorem execAddI_of_carry {s : State} (x : RegIx) (h : s.cfg.addiCarry = true) :
    execAddI x s =
      .next ((s.writeI (s.i + (s.readV x).setWidth 16)).writeV vf (flagByte (addICarry s.i (s.readV x)))).advance := by
  simp [execAddI, h]

theorem execAddI_of_noCarry {s : State} (x : RegIx) (h : s.cfg.addiCarry = false) :
    execAddI x s = .next (s.writeI (s.i + (s.readV x).setWidth 16)).advance := by
  simp [execAddI, h]

/-- Settles O33: with `ADDI_CARRY` the carry is written to VF after `I`, without it no register is written. -/
theorem addIndexCarry : Obligations.AddIndexCarry := by
  intro x s
  have hi : (s.i + (s.readV x).setWidth 16).toNat = (s.i.toNat + (s.readV x).toNat) % 65536 := by simp
  have frame : Unchanged [.i, .v, .pc] s (s.writeI (s.i + (s.readV x).setWidth 16)) := (s.unchanged_writeI _).mono (by simp)
  cases hc : s.cfg.addiCarry with
  | true =>
    refine ⟨_, execAddI_of_carry x hc, hi, ?_, fun r hr => State.readV_writeV_ne _ _ hr, rfl,
      frame.trans ((State.unchanged_writeV_advance _ _ _).mono (by simp))⟩
    simp [addICarry, flagByte_decide]
  | false =>
    exact ⟨_, execAddI_of_noCarry x hc, hi, rfl, fun _ _ => rfl, rfl, frame.trans ((State.unchanged_jumpTo _ _).mono (by simp))⟩

/-- An instruction that loads `I`, the value known as a number that fits. -/
theorem exists_next_of_exec_eq_writeI {i : Instr} {s : State} {w : Word} {n : Nat} (hw : w.toNat = n)
    (h : exec i s = .next (s.writeI w).advance) :
    ∃ t, exec i s = .next t ∧ t.i.toNat = n ∧ t.pc = s.pc + 2#12 ∧ Unchanged [.i, .pc] s t :=
  ⟨_, h, hw, rfl, (s.unchanged_writeI w).advance⟩

/-- Settles O34: no lookup exceeds 16 bits, so none wraps. -/
theorem indexLoads : Obligations.IndexLoads := by
  intro addr x s
  have hbase := s.cfg.fontLoBase.isLt
  have hx := (s.readV x).isLt
  refine ⟨?_, ?_, ?_⟩
  · refine exists_next_of_exec_eq_writeI ?_ rfl
    have := addr.isLt
    simp [zext16]
    omega
  · refine exists_next_of_exec_eq_writeI ?_ rfl
    rw [glyphLoAddr, BitVec.toNat_ofNat]
    omega
  · refine exists_next_of_exec_eq_writeI ?_ rfl
    rw [glyphHiAddr, fontHiBase, BitVec.toNat_ofNat]
    omega

end Sys2Proof.Machine
end

section
/-! PROOFS. The block transfers with memory and the decimal store (spec/42_index_memory.md R124 to R127), and what the next fetch
reads behind a store (spec/20_memory.md R54). -/

namespace Sys2Proof.Machine

/-! ### Stores at `I` -/

/-- What an instruction that stores a list at `I` leaves behind: byte `k` at its address, every other byte as it was. -/
theorem exists_next_of_exec_eq_storeAtI {i : Instr} {s : State} {l : List Byte} (hl : l.length ≤ 16)
    (h : exec i s = .next (s.storeAtI l).advance) :
    ∃ t, exec i s = .next t ∧ (∀ k (hk : k < l.length), t.readByte (s.dataAddr k) = l[k]) ∧
      (∀ a, (∀ k < l.length, a % 4096 ≠ s.dataAddr k) → t.readByte a = s.readByte a) ∧
      t.pc = s.pc + 2#12 ∧ Unchanged [.mem, .pc] s t := by
  have hsize : l.length ≤ memSize := hl.trans (by decide)
  refine ⟨_, h, fun k hk => ?_, fun a ha => ?_, ?_, (s.unchanged_storeAtI l).advance⟩
  · simp [State.readByte_storeAtI_hit s l hsize k hk]
  · simp [State.readByte_storeAtI_other s l a ha]
  · rw [State.storeAtI_eq]; rfl

theorem regsUpTo_map_getElem (x : RegIx) (f : RegIx → Byte) (r : RegIx) (hr : r.val < ((regsUpTo x).map f).length) :
    ((regsUpTo x).map f)[r.val] = f r := by
  rw [List.getElem_map]
  congr 1
  exact Fin.ext (regsUpTo_getElem x r.val _)

/-- Settles O36: the list stored is V0 to Vx. -/
theorem registersAreStored : Obligations.RegistersAreStored := by
  intro x s
  have hlen : ((regsUpTo x).map s.readV).length = x.val + 1 := by rw [List.length_map, regsUpTo_length]
  obtain ⟨t, ht, hhit, hother, hframe⟩ :=
    exists_next_of_exec_eq_storeAtI (by omega) (rfl : exec (.storeRegs x) s = .next (s.storeAtI ((regsUpTo x).map s.readV)).advance)
  refine ⟨t, ht, fun r hr => ?_, fun _ => rfl, fun a ha => ?_, hframe⟩
  · rw [hhit r.val (hlen ▸ Nat.lt_succ_of_le hr), regsUpTo_map_getElem]
  · exact hother a fun k hk => ha k (by omega)

/-- The three digits of a byte (R124): each is a quotient by a power of ten, modulo ten. -/
theorem digits_toNat (b : Byte) (k : Nat) (hk : k < [hundreds b, tens b, ones b].length) :
    ([hundreds b, tens b, ones b][k]).toNat = b.toNat / 10 ^ (2 - k) % 10 := by
  have hb := b.isLt
  match k, hk with
  | 0, _ => simp [hundreds]; omega
  | 1, _ => simp [tens]; omega
  | 2, _ => simp [ones]; omega

/-- What `LD B, Vx` leaves behind, digit by digit. -/
theorem execLdB_digits (x : RegIx) (s : State) :
    ∃ t, exec (.ldB x) s = .next t ∧
      (∀ k < 3, (t.readByte (s.dataAddr k)).toNat = (s.readV x).toNat / 10 ^ (2 - k) % 10) ∧
      (∀ a, (∀ k < 3, a % 4096 ≠ s.dataAddr k) → t.readByte a = s.readByte a) ∧
      t.pc = s.pc + 2#12 ∧ Unchanged [.mem, .pc] s t := by
  obtain ⟨t, ht, hhit, hframe⟩ := exists_next_of_exec_eq_storeAtI (by simp) (rfl : exec (.ldB x) s =
    .next (s.storeAtI [hundreds (s.readV x), tens (s.readV x), ones (s.readV x)]).advance)
  exact ⟨t, ht, fun k hk => by rw [hhit k hk, digits_toNat], hframe⟩

/-- Settles O35: a byte has no more than three digits, so the first is the quotient by 100 itself. -/
theorem decimalDigitsAreStored : Obligations.DecimalDigitsAreStored := by
  intro x s
  obtain ⟨t, ht, hdigit, hframe⟩ := execLdB_digits x s
  have hx := (s.readV x).isLt
  have h0 := hdigit 0 (by decide)
  have h1 := hdigit 1 (by decide)
  have h2 := hdigit 2 (by decide)
  refine ⟨t, ht, ?_, ?_, ?_, fun _ => rfl, hframe⟩
  · omega
  · simpa using h1
  · simpa using h2

/-! ### The fetch behind a store -/

theorem hiByte_fetchWord (s : State) : hiByte (fetchWord s) = s.readByte s.pc.toNat := hiByte_wordOfBytes _ _

theorem loByte_fetchWord (s : State) : loByte (fetchWord s) = s.readByte ((s.pc.toNat + 1) % 4096) := by
  rw [fetchWord_eq]; exact loByte_wordOfBytes _ _

/-- Settles O11: the two halves of the fetched word are the bytes at `PC` and behind it, and those are stored bytes or untouched. -/
theorem storedBytesAreFetchedNext : Obligations.StoredBytesAreFetchedNext := by
  intro x s
  have hmod : ∀ p : Addr, p.toNat % 4096 = p.toNat := fun p => Nat.mod_eq_of_lt p.isLt
  have hlo : ∀ p : Addr, s.readByte (p.toNat + 1) = s.readByte ((p.toNat + 1) % 4096) := fun p => (s.readByte_mod _).symm
  constructor
  · obtain ⟨t, ht, hhit, -, hother, hpc, -⟩ := registersAreStored x s
    refine ⟨t, ht, hpc, fun r hr ha => ?_, fun r hr ha => ?_, fun ha => ?_, fun ha => ?_⟩
    · rw [hiByte_fetchWord, ← ha, hhit r hr]
    · rw [loByte_fetchWord, ← ha, hhit r hr]
    · rw [hiByte_fetchWord, hother _ fun k hk => (hmod _).symm ▸ (ha k hk).symm]
    · rw [loByte_fetchWord, hlo, hother _ fun k hk => (Nat.mod_mod _ _).symm ▸ (ha k hk).symm]
  · obtain ⟨t, ht, hdigit, hother, hpc, -⟩ := execLdB_digits x s
    refine ⟨t, ht, hpc, fun k hk ha => ?_, fun k hk ha => ?_, fun ha => ?_, fun ha => ?_⟩
    · rw [hiByte_fetchWord, ← ha, hdigit k hk]
    · rw [loByte_fetchWord, ← ha, hdigit k hk]
    · rw [hiByte_fetchWord, hother _ fun k hk => (hmod _).symm ▸ (ha k hk).symm]
    · rw [loByte_fetchWord, hlo, hother _ fun k hk => (Nat.mod_mod _ _).symm ▸ (ha k hk).symm]

/-! ### Loads from `I` -/

/-- Settles O37: the registers of the list are V0 to Vx, and the address is reduced by the read. -/
theorem registersAreLoaded : Obligations.RegistersAreLoaded := by
  intro x s
  have frame := (s.unchanged_writeFold (fun r => s.readByte (s.dataAddr r.val)) (regsUpTo x)).advance
  have hread := State.readV_writeFold (fun r => s.readByte (s.dataAddr r.val)) (regsUpTo x) s
  refine ⟨_, rfl, fun r hr => ?_, fun r hr => ?_, ?_, frame⟩
  · exact (hread r).trans (if_pos (mem_regsUpTo.2 hr))
  · exact (hread r).trans (if_neg fun h => absurd (mem_regsUpTo.1 h) (not_le_of_gt hr))
  · rw [State.writeFold_eq]; rfl

/-- Settles O38: `I` and memory are in the frame of what happened in between. -/
theorem storeThenLoadRestores : Obligations.StoreThenLoadRestores := by
  intro x s
  obtain ⟨t, ht, hhit, -, -, -, hst⟩ := registersAreStored x s
  refine ⟨t, ht, fun t' htt' => ?_⟩
  obtain ⟨u, hu, hload, -⟩ := registersAreLoaded x t'
  have hi : t'.i = s.i := (htt' .i (by simp)).trans (hst .i (by simp))
  have hmem : ∀ a, t'.readByte a = t.readByte a := htt' .mem (by simp)
  refine ⟨u, hu, fun r hr => ?_⟩
  rw [hload r hr, hi, hmem]
  exact hhit r hr

end Sys2Proof.Machine
end

section
/-! PROOFS. The flags store (spec/42_index_memory.md R128, R129): eight slots, which a host reset keeps (spec/10_state.md R20). -/

namespace Sys2Proof.Machine

/-- Settles O39: slot `k` and register `k` for the eight slots, whatever `x` is. -/
theorem flagsTransfersMoveEight : Obligations.FlagsTransfersMoveEight := by
  intro x s
  refine ⟨⟨_, rfl, fun k => s.saveToFlags_slot k, rfl, s.unchanged_saveToFlags.advance⟩,
    ⟨_, rfl, fun k => ?_, fun r hr => ?_, rfl, s.unchanged_loadFromFlags.advance⟩⟩
  · exact (s.loadFromFlags_readV _).trans (dif_pos k.isLt)
  · exact (s.loadFromFlags_readV r).trans (dif_neg (by omega))

/-- Settles O40: a reset keeps the flags store and clears the registers. -/
theorem flagsStoreSurvivesReset : Obligations.FlagsStoreSurvivesReset := by
  intro x y s
  obtain ⟨⟨t, ht, hsave, -⟩, -⟩ := flagsTransfersMoveEight x s
  obtain ⟨-, ⟨v, hv, hload, hkeep, -⟩⟩ := flagsTransfersMoveEight y t.hostReset
  refine ⟨t, t.hostReset, v, ht, rfl, hv, fun r hr => ?_, fun r hr => ?_⟩
  · exact (hload ⟨r.val, hr⟩).trans (hsave ⟨r.val, hr⟩)
  · rw [hkeep r hr]
    simp [State.hostReset, State.init, State.readV]

end Sys2Proof.Machine
end

section
/-! PROOFS. The scrolls (spec/43_display.md R143 to R145): each shows a grid whose active cells are those of the old one, moved. -/

namespace Sys2Proof.Machine

/-- What an instruction that shows a grid leaves behind, the active cells of the grid known. -/
theorem exists_next_of_exec_eq_show {i : Instr} {s : State} {g : Grid} {cell : Nat → Nat → Bool}
    (hg : ∀ x y, x < s.width → y < s.height → pixel g x y = cell x y) (h : exec i s = .next (s.show g)) :
    ∃ t, exec i s = .next t ∧ (∀ x y, x < s.width → y < s.height → t.pixelAt x y = cell x y) ∧
      t.dirty = true ∧ t.pc = s.pc + 2#12 ∧ Unchanged [.fb, .dirty, .pc] s t :=
  ⟨_, h, hg, rfl, rfl, s.unchanged_show g⟩

/-- Settles O43. -/
theorem scrollDownMovesRows : Obligations.ScrollDownMovesRows := by
  intro n s
  refine exists_next_of_exec_eq_show (fun x y hx hy => ?_) rfl
  rw [pixel_scrollDown s.width_le s.height_le]
  by_cases hn : n.toNat ≤ y <;> simp [hx, hy, hn, State.pixelAt]

/-- Settles O44. -/
theorem scrollSidewaysMovesColumns : Obligations.ScrollSidewaysMovesColumns := by
  intro s
  constructor
  · refine exists_next_of_exec_eq_show (fun x y hx hy => ?_) rfl
    rw [pixel_scrollRight s.width_le s.height_le, scrollStep]
    by_cases h4 : 4 ≤ x <;> simp [hx, hy, h4, State.pixelAt]
  · refine exists_next_of_exec_eq_show (fun x y hx hy => ?_) rfl
    rw [pixel_scrollLeft s.width_le s.height_le, scrollStep]
    by_cases h4 : x + 4 < s.width <;> simp [hy, h4, State.pixelAt]

/-! ### Repeated `SCR` -/

/-- A cell that is on after `SCR` is an active one, and was on 4 columns further left. -/
theorem pixelAt_of_execScr {s t : State} (h : exec .scr s = .next t) {x y : Nat} (hp : t.pixelAt x y = true) :
    x < s.width ∧ 4 ≤ x ∧ s.pixelAt (x - 4) y = true := by
  cases h
  rw [State.show_pixelAt, pixel_scrollRight s.width_le s.height_le, scrollStep] at hp
  simp only [Bool.and_eq_true, decide_eq_true_eq] at hp
  exact ⟨hp.1.1.1, hp.1.2, hp.2⟩

theorem width_of_execScr {s t : State} (h : exec .scr s = .next t) : t.width = s.width := by
  cases h
  rfl

theorem State.width_div_four (s : State) : s.width / 4 ≠ 0 ∧ 4 * (s.width / 4) = s.width := by
  unfold State.width
  split
  · decide
  · cases s.mode <;> decide

/-- Settles O45: `k` scrolls leave only cells of column 4 · `k` and further right. -/
theorem repeatedScrollRightEmpties : Obligations.RepeatedScrollRightEmpties := by
  intro f hf x y
  have hwidth : ∀ k, (f k).width = (f 0).width := by
    intro k
    induction k with
    | zero => rfl
    | succ k ih => rw [width_of_execScr (hf k), ih]
  have hcol : ∀ k x, (f k).pixelAt x y = true → 4 * k ≤ x := by
    intro k
    induction k with
    | zero => exact fun x _ => by omega
    | succ k ih =>
      intro x hp
      obtain ⟨-, h4, hleft⟩ := pixelAt_of_execScr (hf k) hp
      have := ih _ hleft
      omega
  obtain ⟨hne, hmul⟩ := (f 0).width_div_four
  obtain ⟨k, hk⟩ := Nat.exists_eq_succ_of_ne_zero hne
  by_contra hp
  rw [Bool.not_eq_false] at hp
  have hright := hcol _ x hp
  rw [hk] at hp
  obtain ⟨hx, -, -⟩ := pixelAt_of_execScr (hf k) hp
  rw [hwidth k] at hx
  omega

end Sys2Proof.Machine
end

section
/-! PROOFS. The draws (spec/43_display.md R146 to R152): the sprite's bits as they stand in memory, what a draw leaves behind, and
drawing the same sprite twice. -/

namespace Sys2Proof.Machine

/-! ### The bits of a sprite -/

/-- The bits of an 8-wide sprite, the address not yet reduced (R150). -/
theorem State.narrowBit_eq (s : State) :
    s.narrowBit = fun r c => (s.readByte (s.i.toNat + r)).getLsbD (7 - c) := by
  funext r c
  exact congrArg (BitVec.getLsbD · (7 - c)) (s.readByte_mod _)

/-- The bits of a 16-wide sprite: the left half of a row in its first byte (R150). -/
theorem State.wideBit_eq (s : State) :
    s.wideBit = fun r c => if c < 8 then (s.readByte (s.i.toNat + 2 * r)).getLsbD (7 - c)
      else (s.readByte (s.i.toNat + 2 * r + 1)).getLsbD (15 - c) := by
  funext r c
  have hhi : s.readByte (s.dataAddr (2 * r)) = s.readByte (s.i.toNat + 2 * r) := s.readByte_mod _
  have hlo : s.readByte (s.dataAddr (2 * r + 1)) = s.readByte (s.i.toNat + 2 * r + 1) := s.readByte_mod _
  rw [State.wideBit, hhi, hlo]
  refine (BitVec.getLsbD_append (x := s.readByte (s.i.toNat + 2 * r))).trans ?_
  by_cases hc : c < 8
  · rw [if_pos hc, if_neg (by omega), show 15 - c - 8 = 7 - c by omega]
  · rw [if_neg hc, if_pos (by omega)]

section
variable {s t : State} (hi : t.i = s.i) (hmem : ∀ a, t.readByte a = s.readByte a)
include hi hmem

theorem State.narrowBit_congr : t.narrowBit = s.narrowBit := by
  simp only [State.narrowBit_eq, hi, hmem]

theorem State.wideBit_congr : t.wideBit = s.wideBit := by
  simp only [State.wideBit_eq, hi, hmem]

end

/-! ### One draw -/

/-- `t` is the state after drawing a sprite in `s`: the cells of the plotted pixels toggled, VF the collision (R151). -/
structure Drawn (s t : State) (x y : RegIx) (rows cols : Nat) (bit : Nat → Nat → Bool) : Prop where
  cells : ∀ px py, t.pixelAt px py = true ↔ ¬(s.pixelAt px py = true ↔
    s.Plots x y rows cols bit (if s.doubled then px / 2 else px) (if s.doubled then py / 2 else py))
  collision : t.readV vf = 1 ↔ ∃ lx ly, s.Plots x y rows cols bit lx ly ∧
    s.pixelAt (if s.doubled then 2 * lx else lx) (if s.doubled then 2 * ly else ly) = true
  flag : t.readV vf = 0 ∨ t.readV vf = 1
  regs : ∀ r, r ≠ vf → t.readV r = s.readV r
  dirty : t.dirty = true
  pc : t.pc = s.pc + 2#12
  frame : Unchanged [.fb, .v, .dirty, .pc] s t

theorem flagByte_eq_one (b : Bool) : flagByte b = 1 ↔ b = true := by cases b <;> decide

theorem flagByte_eq_zero_or_one (b : Bool) : flagByte b = 0 ∨ flagByte b = 1 := by cases b <;> decide

theorem State.drawn_draw (s : State) (x y : RegIx) (rows cols : Nat) (bit : Nat → Nat → Bool) :
    Drawn s (s.draw x y (spriteCells rows cols bit)) x y rows cols bit := by
  obtain ⟨hflag, hcollision⟩ := s.draw_collision x y rows cols bit
  exact {
    cells := s.draw_pixelAt x y rows cols bit
    collision := by rw [hflag, flagByte_eq_one, hcollision]
    flag := hflag ▸ flagByte_eq_zero_or_one _
    regs := fun r hr => s.readV_writeV_ne _ hr
    dirty := rfl
    pc := rfl
    frame := s.unchanged_draw x y _ }

/-- The narrow draw, in either mode. -/
theorem execDrw_drawn (x y : RegIx) (n : Nibble) (s : State) :
    ∃ t, exec (.drw x y n) s = .next t ∧ Drawn s t x y n.toNat 8 s.narrowBit :=
  ⟨_, rfl, s.drawn_draw x y n.toNat 8 s.narrowBit⟩

theorem execDrwWide_high (x y : RegIx) {s : State} (hm : s.mode = .high) :
    exec (.drwWide x y) s = .next (s.draw x y (spriteCells 16 16 s.wideBit)) := by
  simp [exec, execDrwWide, hm]

/-- The wide draw in High mode. -/
theorem execDrwWide_drawn (x y : RegIx) {s : State} (hm : s.mode = .high) :
    ∃ t, exec (.drwWide x y) s = .next t ∧ Drawn s t x y 16 16 s.wideBit :=
  ⟨_, execDrwWide_high x y hm, s.drawn_draw x y 16 16 s.wideBit⟩

/-- The wide draw in Low mode draws no cell (D12). -/
theorem execDrwWide_low (x y : RegIx) {s : State} (hm : s.mode = .low) :
    exec (.drwWide x y) s = .next ((s.writeFlag false).show s.fb) := by
  simp [exec, execDrwWide, hm, State.draw, drawCells]

theorem State.unchanged_showSame (s : State) : Unchanged [.dirty, .pc] s (s.show s.fb) := by
  intro it hit
  cases it with
  | dirty | pc => simp at hit
  | fb => exact fun _ _ => rfl
  | _ => simp [Item.same]

theorem State.doubled_eq_false {s : State} (h : s.cfg.loresDoubled = false ∨ s.mode = .high) : s.doubled = false := by
  rcases h with h | h <;> simp [State.doubled, h]

section
variable {s t : State} {x y : RegIx} {rows cols : Nat} {bit : Nat → Nat → Bool}

/-- An undoubled pixel is its own cell. -/
theorem Drawn.undoubled (d : Drawn s t x y rows cols bit) (hd : s.doubled = false) :
    (∀ px py, t.pixelAt px py = true ↔ ¬(s.pixelAt px py = true ↔ s.Plots x y rows cols bit px py)) ∧
    (t.readV vf = 1 ↔ ∃ px py, s.Plots x y rows cols bit px py ∧ s.pixelAt px py = true) ∧
    (t.readV vf = 0 ∨ t.readV vf = 1) ∧ (∀ r, r ≠ vf → t.readV r = s.readV r) ∧
    t.dirty = true ∧ t.pc = s.pc + 2#12 ∧ Unchanged [.fb, .v, .dirty, .pc] s t :=
  ⟨by simpa [hd] using d.cells, by simpa [hd] using d.collision, d.flag, d.regs, d.dirty, d.pc, d.frame⟩

/-- A doubled pixel is a block of four cells, the top-left one sampled. -/
theorem Drawn.inBlocks (d : Drawn s t x y rows cols bit) (hd : s.doubled = true) :
    (∀ px py, t.pixelAt px py = true ↔ ¬(s.pixelAt px py = true ↔ s.Plots x y rows cols bit (px / 2) (py / 2))) ∧
    (t.readV vf = 1 ↔ ∃ lx ly, s.Plots x y rows cols bit lx ly ∧ s.pixelAt (2 * lx) (2 * ly) = true) ∧
    (t.readV vf = 0 ∨ t.readV vf = 1) ∧ (∀ r, r ≠ vf → t.readV r = s.readV r) ∧
    t.dirty = true ∧ t.pc = s.pc + 2#12 ∧ Unchanged [.fb, .v, .dirty, .pc] s t :=
  ⟨by simpa [hd] using d.cells, by simpa [hd] using d.collision, d.flag, d.regs, d.dirty, d.pc, d.frame⟩

end

/-- Settles O46. -/
theorem drawTogglesThePlottedCells : Obligations.DrawTogglesThePlottedCells := by
  intro x y n s h
  obtain ⟨t, ht, d⟩ := execDrw_drawn x y n s
  rw [State.narrowBit_eq] at d
  exact ⟨t, ht, d.undoubled (State.doubled_eq_false h)⟩

/-- Settles O47: no pixel is doubled in High mode, and in Low mode the grid shown is the old one. -/
theorem wideDrawTogglesThePlottedCells : Obligations.WideDrawTogglesThePlottedCells := by
  intro x y s
  refine ⟨fun hm => ?_, fun hm => ?_⟩
  · obtain ⟨t, ht, d⟩ := execDrwWide_drawn x y hm
    rw [State.wideBit_eq] at d
    exact ⟨t, ht, d.undoubled (State.doubled_eq_false (.inr hm))⟩
  · refine ⟨_, execDrwWide_low x y hm, s.readV_writeV_same vf _, fun r hr => s.readV_writeV_ne _ hr, rfl, rfl, ?_⟩
    exact ((s.unchanged_writeV vf _).mono (by simp)).trans ((State.unchanged_showSame _).mono (by simp))

/-- Settles O48. -/
theorem doubledDrawTogglesBlocks : Obligations.DoubledDrawTogglesBlocks := by
  intro x y n s hl hm
  obtain ⟨t, ht, d⟩ := execDrw_drawn x y n s
  rw [State.narrowBit_eq] at d
  exact ⟨t, ht, d.inBlocks (by simp [State.doubled, hl, hm])⟩

/-! ### Two draws -/

section
variable {s t u : State} {x y : RegIx} {rows cols : Nat} {bit : Nat → Nat → Bool}

/-- The second draw plots what the first did: neither coordinate is VF. -/
theorem Drawn.plots (d : Drawn s t x y rows cols bit) (hx : x ≠ vf) (hy : y ≠ vf) (lx ly : Nat) :
    t.Plots x y rows cols bit lx ly ↔ s.Plots x y rows cols bit lx ly := by
  have hmode : t.mode = s.mode := d.frame .mode (by simp)
  simp only [State.Plots, hmode, d.regs x hx, d.regs y hy]

theorem Drawn.doubled (d : Drawn s t x y rows cols bit) : t.doubled = s.doubled := by
  have hmode : t.mode = s.mode := d.frame .mode (by simp)
  have hcfg : t.cfg = s.cfg := d.frame .cfg (by simp)
  simp only [State.doubled, hmode, hcfg]

/-- Toggling twice restores every cell. -/
theorem Drawn.twice_pixelAt (d : Drawn s t x y rows cols bit) (e : Drawn t u x y rows cols bit) (hx : x ≠ vf) (hy : y ≠ vf)
    (px py : Nat) : u.pixelAt px py = s.pixelAt px py := by
  have hu := e.cells px py
  rw [d.plots hx hy, d.doubled, d.cells px py] at hu
  rw [Bool.eq_iff_iff, hu]
  tauto

/-- The second draw collides where the sampled cell was off before the first. -/
theorem Drawn.twice_collision (d : Drawn s t x y rows cols bit) (e : Drawn t u x y rows cols bit) (hx : x ≠ vf) (hy : y ≠ vf) :
    u.readV vf = 1 ↔ ∃ lx ly, s.Plots x y rows cols bit lx ly ∧
      s.pixelAt (if s.doubled then 2 * lx else lx) (if s.doubled then 2 * ly else ly) = false := by
  rw [e.collision, d.doubled]
  refine exists₂_congr fun lx ly => ?_
  rw [d.plots hx hy, d.cells]
  have hblock : ∀ k, (if s.doubled then (if s.doubled then 2 * k else k) / 2 else (if s.doubled then 2 * k else k)) = k := by
    intro k; split <;> omega
  rw [hblock, hblock, ← Bool.not_eq_true]
  tauto

end

/-- Settles O49: both forms draw the same sprite again, since a draw writes neither `I` nor memory. -/
theorem drawTwiceRestores : Obligations.DrawTwiceRestores := by
  intro x y n s z hx hy hz
  constructor
  · obtain ⟨t, ht, d⟩ := execDrw_drawn x y n s
    obtain ⟨u, hu, e⟩ := execDrw_drawn x y n t
    rw [State.narrowBit_congr (d.frame .i (by simp)) (d.frame .mem (by simp))] at e
    rw [State.narrowBit_eq] at d e
    refine ⟨t, u, ht, hu, d.twice_pixelAt e hx hy, e.flag, ?_⟩
    have hscale : ∀ k, (if s.doubled then 2 * k else k) = z * k := by
      intro k
      simp only [hz, State.doubled, Bool.and_eq_true, decide_eq_true_eq]
      split <;> simp
    rw [d.twice_collision e hx hy]
    simp only [hscale]
  · cases hm : s.mode with
    | high =>
      obtain ⟨t, ht, d⟩ := execDrwWide_drawn x y hm
      obtain ⟨u, hu, e⟩ := execDrwWide_drawn x y ((d.frame .mode (by simp)).trans hm)
      rw [State.wideBit_congr (d.frame .i (by simp)) (d.frame .mem (by simp))] at e
      rw [State.wideBit_eq] at d e
      refine ⟨t, u, ht, hu, d.twice_pixelAt e hx hy, e.flag, ?_⟩
      rw [d.twice_collision e hx hy]
      simp only [State.doubled_eq_false (.inr hm), Bool.false_eq_true, if_false, true_and]
    | low =>
      refine ⟨_, _, execDrwWide_low x y hm, execDrwWide_low x y hm, fun _ _ => rfl, .inl ?_, ?_⟩ <;> simp [flagByte]

end Sys2Proof.Machine
end

section
/-! PROOFS. Keys and the key wait (spec/44_keys_timers.md R160 to R162). -/

namespace Sys2Proof.Machine

/-- The low 4 bits of a byte as a number (D15). -/
theorem keyIndex_eq {b : Byte} {k : RegIx} (h : k.val = b.toNat % 16) : keyIndex b = k := by
  apply Fin.ext
  rw [h]
  simp [keyIndex]

/-- Settles O50: the condition of each skip is the level of that key. -/
theorem keySkips : Obligations.KeySkips := by
  intro x s k hk
  have hlevel : s.keyDown (keyIndex (s.readV x)) = s.key[k] := by rw [keyIndex_eq hk]; rfl
  refine ⟨⟨_, rfl, ?_, s.unchanged_skipIf _⟩, ⟨_, rfl, ?_, s.unchanged_skipIf _⟩⟩
  · rw [State.skipIf_eq, State.jumpTo_pc, pcPlus_toNat, hlevel]
  · rw [State.skipIf_eq, State.jumpTo_pc, pcPlus_toNat, hlevel]
    cases s.key[k] <;> rfl

theorem keyByte_toNat (k : RegIx) : (keyByte k).toNat = k.val := by
  have := k.isLt
  simp [keyByte]
  omega

/-- Settles O51: the two cases are those of the lowest key that is down. -/
theorem keyWaitCapturesOrPolls : Obligations.KeyWaitCapturesOrPolls := by
  intro x s
  refine ⟨fun k hk hlow => ?_, fun hnone => ?_⟩
  · have hfirst : s.firstKey = some k := State.firstKey_eq_some.2 ⟨hk, hlow⟩
    refine ⟨_, execLdVxK_of_key x hfirst, ?_, rfl, rfl, fun r hr => s.readV_writeV_ne _ hr, ?_⟩
    · exact (congrArg BitVec.toNat (s.readV_writeV_same x _)).trans (keyByte_toNat k)
    · exact ((s.unchanged_writeV x _).mono (by simp)).trans
        ((State.unchanged_setWaiting (s.writeV x (keyByte k)) false).advance.mono (by simp))
  · exact ⟨_, execLdVxK_of_none x (State.firstKey_eq_none.2 hnone), rfl, s.unchanged_setWaiting true⟩

/-- A poll without a key, in AwaitingKey already, changes nothing. -/
theorem step_of_awaiting {s : State} {x : RegIx} (he : s.err.code = .none) (hw : s.waiting = true)
    (hi : decodeWord (fetchWord s) = some (.ldVxK x)) (hk : s.firstKey = none) : step s = .next s := by
  have hs : { s with waiting := true } = s := by rw [← hw]
  rw [step_of_decode he hi]
  exact (execLdVxK_of_none x hk).trans (congrArg _ hs)

/-- A machine that steps to the same state stays there for any number of steps. -/
theorem run_of_step_self {M : Host.Core} {s : M.State} (h : M.step s = .next s) (n : Nat) : M.run n s = .next s := by
  induction n with
  | zero => rfl
  | succ n ih =>
    rw [Host.Core.run, h]
    exact ih

/-- Settles O52: one poll without a key changes nothing. -/
theorem awaitingKeyLastsWithoutAKey : Obligations.AwaitingKeyLastsWithoutAKey :=
  fun n _ _ he hw hi hk =>
    run_of_step_self (M := core) (step_of_awaiting he hw hi (State.firstKey_eq_none.2 hk)) n

end Sys2Proof.Machine
end

section
/-! PROOFS. The host (spec/70_reset_and_hazards.md): the ticker, the state that `init` answers, and the end of a run. -/

namespace Sys2Proof.Machine

/-! ### The ticker -/

theorem tickTimer_toNat (b : Byte) : (tickTimer b).toNat = b.toNat - 1 := by
  unfold tickTimer
  split <;> bv_omega

/-- Settles O54: subtraction of numbers stops at 0 as the timer does. -/
theorem tickStopsAtZero : Obligations.TickStopsAtZero :=
  fun s => ⟨s.tick, rfl, tickTimer_toNat s.dt, tickTimer_toNat s.st, s.unchanged_tick⟩

/-! ### `init` -/

theorem instanceOk_iff (c : Config.Instance) :
    instanceOk c = true ↔ c.fontLoBase.toNat + 180 ≤ c.progBase.toNat ∧ c.rom.length ≤ 4096 - c.progBase.toNat := by
  rw [instanceOk, Bool.and_eq_true, regionsInOrder_iff, romFits_iff]

/-- Besides the flags store and the draw counter, the state after `init` is a matter of the configuration. -/
theorem State.unchanged_init (c : Config.Instance) (f g : Vector Byte 8) (n : Nat) :
    Unchanged [.flags, .rnd] (State.init c f) { State.init c g with rndIx := n } := by
  intro it hit
  cases it with
  | flags | rnd => simp at hit
  | v | mem => exact fun _ => rfl
  | fb => exact fun _ _ => rfl
  | _ => rfl

theorem State.unchanged_setRndIx (s : State) (n : Nat) : Unchanged [.rnd] s { s with rndIx := n } := by
  intro it hit
  cases it with
  | rnd => simp at hit
  | v | mem => exact fun _ => rfl
  | fb => exact fun _ _ => rfl
  | _ => rfl

/-- Settles O16: the two refusals are the two checks of a configuration, and the rest is read off the state after `init`. -/
theorem registersAfterInit : Obligations.RegistersAfterInit := by
  intro c f s
  refine ⟨fun horder => ?_, fun horder => ⟨fun hlong => ?_, fun hfits => ?_⟩⟩
  · refine hostInit_of_outOfOrder s f (Bool.eq_false_iff.2 fun h => ?_)
    rw [regionsInOrder_iff] at h
    omega
  · refine hostInit_of_tooLong s f ((regionsInOrder_iff c).2 horder) (Bool.eq_false_iff.2 fun h => ?_)
    rw [romFits_iff] at h
    omega
  · refine ⟨_, hostInit_of_ok s f ((instanceOk_iff c).2 ⟨horder, hfits⟩), fun r => ?_, rfl, rfl, rfl, fun k => ?_, rfl, rfl,
      fun k => ?_, rfl, rfl, pixel_blank, rfl, rfl, rfl, rfl, rfl, rfl, rfl, rfl, State.unchanged_setRndIx _ _⟩
    · exact Vector.getElem_replicate _
    · exact Vector.getElem_replicate _
    · exact Vector.getElem_replicate _

/-- Settles O17: memory reads as the init image, region by region. -/
theorem memoryAfterInit : Obligations.MemoryAfterInit := by
  intro c f s horder hfits
  have hregions : regionsInOrder c = true := (regionsInOrder_iff c).2 horder
  have hprog : c.progBase.toNat < 4096 := c.progBase.isLt
  refine ⟨_, hostInit_of_ok s f ((instanceOk_iff c).2 ⟨horder, hfits⟩), ?_⟩
  have hread : ∀ a < 4096, ({ State.init c f with rndIx := s.rndIx } : State).readByte a = image c a := fun a ha =>
    (State.readByte_init c f a).trans (by rw [Nat.mod_eq_of_lt ha])
  refine ⟨fun d k => ?_, fun d k => ?_, fun j hj => ?_, fun a ha => ?_, fun a hlo hhi => ?_, fun a hlo hhi => ?_⟩
  · rw [hread _ (by omega), image_glyphLo]
  · rw [hread _ (by omega), image_glyphHi]
  · rw [hread _ (by omega), image_rom hregions, List.getD_eq_getElem _ _ hj]
  · rw [hread _ (by omega), image_before hregions ha]
  · rw [hread _ (by omega), image_behind c hlo, if_neg (by omega)]
  · rw [hread _ hhi, image_behind c (by omega), if_pos (by omega), List.getD_eq_default _ _ (by omega)]

/-- Settles O59: each parameter is a field of the default configuration. -/
theorem resetTakesTheSpecsParameters : Obligations.ResetTakesTheSpecsParameters := ⟨rfl, rfl, rfl, rfl, rfl, rfl⟩

/-! ### The end of a run -/

theorem State.runEnd_isSome {s : State} : s.runEnd.isSome = true ↔ s.exit = true ∨ s.err.code ≠ .none := by
  rw [Option.isSome_iff_ne_none, Ne, State.runEnd_eq_none, ← Bool.not_eq_true]
  tauto

/-- The operations that a run to the end performs, and the states before its end. -/
theorem runToEnd_eq_runEvents_take {es : List Event} {s t : State} (h : runToEnd es s = .next t) :
    ∃ n, n ≤ es.length ∧ runEvents (es.take n) s = .next t ∧
      (∀ m, m < n → ∃ u, runEvents (es.take m) s = .next u ∧ u.exit = false ∧ u.err.code = .none) ∧
      (t.runEnd = none → n = es.length) := by
  induction es generalizing s with
  | nil =>
    obtain ⟨-, rfl⟩ | ⟨-, -, rfl⟩ | ⟨-, e, es', u, hes, -⟩ := runToEnd_cases h
    · exact ⟨0, le_rfl, rfl, fun m hm => absurd hm (Nat.not_lt_zero m), fun _ => rfl⟩
    · exact ⟨0, le_rfl, rfl, fun m hm => absurd hm (Nat.not_lt_zero m), fun _ => rfl⟩
    · cases hes
  | cons e es ih =>
    obtain ⟨hend, rfl⟩ | ⟨-, hes, -⟩ | ⟨hrun, e', es', u, hes, hact, hrest⟩ := runToEnd_cases h
    · exact ⟨0, Nat.zero_le _, rfl, fun m hm => absurd hm (Nat.not_lt_zero m), fun hn => by simp [hn] at hend⟩
    · cases hes
    · cases hes
      obtain ⟨n, hn, htake, hbefore, hall⟩ := ih hrest
      refine ⟨n + 1, Nat.succ_le_succ hn, ?_, fun m hm => ?_, fun ht => congrArg (· + 1) (hall ht)⟩
      · rw [List.take_succ_cons, runEvents_cons hact, htake]
      · cases m with
        | zero => exact ⟨s, rfl, State.runEnd_eq_none.1 hrun⟩
        | succ m =>
          rw [List.take_succ_cons, runEvents_cons hact]
          exact hbefore m (Nat.lt_of_succ_lt_succ hm)

/-- Once a run has ended, further operations make no difference. -/
theorem runToEnd_append_of_ended {es : List Event} {s t : State} (h : runToEnd es s = .next t) (ht : t.runEnd.isSome = true)
    (more : List Event) : runToEnd (es ++ more) s = .next t := by
  induction es generalizing s with
  | nil =>
    obtain rfl : s = t := by cases h; rfl
    exact runToEnd_of_ended ht _
  | cons e es ih =>
    obtain ⟨hend, rfl⟩ | ⟨-, hes, -⟩ | ⟨hrun, e', es', u, hes, hact, hrest⟩ := runToEnd_cases h
    · exact runToEnd_of_ended hend _
    · cases hes
    · cases hes
      exact (runToEnd_cons hrun hact _).trans (ih hrest)

/-- Settles O60. -/
theorem runEndsAtTheFirstExit : Obligations.RunEndsAtTheFirstExit := by
  intro es s t h
  refine ⟨?_, fun ht => runToEnd_append_of_ended h (State.runEnd_isSome.2 ht), State.runEnd_eq_normal, State.runEnd_eq_abnormal⟩
  obtain ⟨n, hn, htake, hbefore, hall⟩ := runToEnd_eq_runEvents_take h
  exact ⟨n, hn, htake, hbefore, fun hexit herr => hall (State.runEnd_eq_none.2 ⟨hexit, herr⟩)⟩

end Sys2Proof.Machine
end

section
/-! PROOFS. The access matrix (spec/10_state.md R32, R33): every instruction writes inside its row, and what follows for a step. -/

namespace Sys2Proof.Machine

/-- From `s` to `t` nothing is written outside the row of `i`. -/
def StaysIn (i : Instr) (s t : State) : Prop :=
  Unchanged (.pc :: writes i) s t ∧ ∀ r, writesReg i r = false → t.readV r = s.readV r

section
variable {i : Instr} {s t : State}

/-- A frame without a register write keeps every register. -/
theorem StaysIn.of_unchanged {l : List Item} (h : Unchanged l s t) (hl : l ⊆ .pc :: writes i) (hv : .v ∉ l) : StaysIn i s t :=
  ⟨h.mono hl, fun r _ => h .v hv r⟩

theorem StaysIn.of_regs {l : List Item} (h : Unchanged l s t) (hl : l ⊆ .pc :: writes i) {p : RegIx → Prop}
    (hregs : ∀ r, ¬p r → t.readV r = s.readV r) (hp : ∀ r, p r → writesReg i r = true) : StaysIn i s t :=
  ⟨h.mono hl, fun r hr => hregs r fun hpr => by simp [hp r hpr] at hr⟩

theorem StaysIn.writeV {x : RegIx} {b : Byte} (hl : [.v, .pc] ⊆ .pc :: writes i) (hx : writesReg i x = true) :
    StaysIn i s (s.writeV x b).advance :=
  .of_regs (s.unchanged_writeV_advance x b) hl (p := (· = x)) (fun _ hr => s.readV_writeV_ne b hr) fun _ hr => hr ▸ hx

theorem StaysIn.writeResultThenFlag {x : RegIx} {b : Byte} {f : Bool} (hl : [.v, .pc] ⊆ .pc :: writes i)
    (hx : writesReg i x = true) (hvf : writesReg i vf = true) : StaysIn i s (s.writeResultThenFlag x b f).advance := by
  refine .of_regs (s.unchanged_writeResultThenFlag_advance x b f) hl (p := fun r => r = x ∨ r = vf) (fun r hr => ?_) ?_
  · obtain ⟨hrx, hrvf⟩ := not_or.1 hr
    exact (State.readV_writeV_ne _ _ hrvf).trans (s.readV_writeV_ne b hrx)
  · rintro r (rfl | rfl) <;> assumption

theorem StaysIn.draw {x y : RegIx} {cells : List (Nat × Nat)} (hl : [.fb, .v, .dirty, .pc] ⊆ .pc :: writes i)
    (hvf : writesReg i vf = true) : StaysIn i s (s.draw x y cells) :=
  .of_regs (s.unchanged_draw x y cells) hl (p := (· = vf)) (fun _ hr => s.readV_writeV_ne _ hr) fun _ hr => hr ▸ hvf

end

theorem execAddI_staysIn (x : RegIx) (s : State) : ∃ t, exec (.addI x) s = .next t ∧ StaysIn (.addI x) s t := by
  obtain ⟨t, ht, -, -, hregs, -, hframe⟩ := addIndexCarry x s
  exact ⟨t, ht, .of_regs hframe (by simp [writes]) hregs fun r hr => by simp [writesReg, hr]⟩

/-- Every instruction stays in its row. -/
theorem exec_staysIn (i : Instr) (s : State) : ∃ t, exec i s = .next t ∧ StaysIn i s t := by
  cases i with
  | scd | scr | scl | cls => exact ⟨_, rfl, .of_unchanged (s.unchanged_show _) (by simp [writes]) (by simp)⟩
  | low | high =>
    have frame (m : Mode) : Unchanged [.mode, .fb, .dirty, .pc] s ({ s with mode := m }.show blank) :=
      ((s.unchanged_setMode m).mono (by simp)).trans ((State.unchanged_show _ blank).mono (by simp))
    exact ⟨_, rfl, .of_unchanged (frame _) (by simp [writes]) (by simp)⟩
  | exit => exact ⟨_, rfl, .of_unchanged s.unchanged_requestExit.advance (by simp [writes]) (by simp)⟩
  | ret =>
    by_cases h : s.sp = 0
    · exact ⟨_, execRet_empty h, .of_unchanged (s.unchanged_setErr _) (by simp [writes]) (by simp)⟩
    · have frame : Unchanged [.sp, .pc] s (s.pop.jumpTo (pcPlus s.pop.stackAt 2)) :=
        (s.unchanged_pop.mono (by simp)).trans ((State.unchanged_jumpTo _ _).mono (by simp))
      exact ⟨_, execRet_of_ne h, .of_unchanged frame (by simp [writes]) (by simp)⟩
  | call addr =>
    by_cases h : s.sp = 15
    · exact ⟨_, execCall_full addr h, .of_unchanged (s.unchanged_setErr _) (by simp [writes]) (by simp)⟩
    · obtain ⟨t, ht, -, -, -, hframe⟩ := callPushesItsOwnAddress addr s h
      exact ⟨t, ht, .of_unchanged hframe (by simp [writes]) (by simp)⟩
  | jp | jpV0 => exact ⟨_, rfl, .of_unchanged (s.unchanged_jumpTo _) (by simp) (by simp)⟩
  | seByte | sneByte | seReg | sneReg | skp | sknp => exact ⟨_, rfl, .of_unchanged (s.unchanged_skipIf _) (by simp) (by simp)⟩
  | ldByte | addByte | ldReg | orReg | andReg | xorReg | ldVxDt => exact ⟨_, rfl, .writeV (by simp [writes]) (by simp [writesReg])⟩
  | addReg | sub | subn | shr | shl =>
    exact ⟨_, rfl, .writeResultThenFlag (by simp [writes]) (by simp [writesReg]) (by simp [writesReg])⟩
  | ldI | ldF | ldHf => exact ⟨_, rfl, .of_unchanged (s.unchanged_writeI _).advance (by simp [writes]) (by simp)⟩
  | addI x => exact execAddI_staysIn x s
  | rnd x kk =>
    obtain ⟨t, ht, -, -, hregs, -, hframe⟩ := randomByteUnderMask x kk s
    exact ⟨t, ht, .of_regs hframe (by simp [writes]) hregs fun r hr => by simp [writesReg, hr]⟩
  | drw | drwWide => exact ⟨_, rfl, .draw (by simp [writes]) (by simp [writesReg])⟩
  | ldVxK x =>
    cases h : s.firstKey with
    | none => exact ⟨_, execLdVxK_of_none x h, .of_unchanged (s.unchanged_setWaiting true) (by simp [writes]) (by simp)⟩
    | some k =>
      obtain ⟨hk, hlow⟩ := State.firstKey_eq_some.1 h
      obtain ⟨t, ht, -, -, -, hregs, hframe⟩ := (keyWaitCapturesOrPolls x s).1 k hk hlow
      exact ⟨t, ht, .of_regs hframe (by simp [writes]) hregs fun r hr => by simp [writesReg, hr]⟩
  | ldDtVx => exact ⟨_, rfl, .of_unchanged (s.unchanged_setDt _).advance (by simp [writes]) (by simp)⟩
  | ldStVx => exact ⟨_, rfl, .of_unchanged (s.unchanged_setSt _).advance (by simp [writes]) (by simp)⟩
  | ldB | storeRegs => exact ⟨_, rfl, .of_unchanged (s.unchanged_storeAtI _).advance (by simp [writes]) (by simp)⟩
  | loadRegs x =>
    obtain ⟨t, ht, -, hregs, -, hframe⟩ := registersAreLoaded x s
    exact ⟨t, ht, .of_regs hframe (by simp [writes]) (fun r hr => hregs r (not_le.1 hr)) fun r hr => decide_eq_true hr⟩
  | saveFlags => exact ⟨_, rfl, .of_unchanged s.unchanged_saveToFlags.advance (by simp [writes]) (by simp)⟩
  | loadFlags x =>
    obtain ⟨-, t, ht, -, hregs, -, hframe⟩ := flagsTransfersMoveEight x s
    exact ⟨t, ht, .of_regs hframe (by simp [writes]) (fun r hr => hregs r (not_lt.1 hr)) fun r hr => decide_eq_true hr⟩

/-- Settles O56. -/
theorem writesStayInTheAccessMatrix : Obligations.WritesStayInTheAccessMatrix := by
  intro i s t h
  obtain ⟨u, hu, hrow⟩ := exec_staysIn i s
  obtain rfl : u = t := by rw [hu] at h; cases h; rfl
  exact hrow

/-! ### What a step never clears -/

section
variable {i : Instr} {s t : State}

theorem exec_unchanged (h : exec i s = .next t) : Unchanged (.pc :: writes i) s t :=
  (writesStayInTheAccessMatrix i s t h).1

theorem exec_key (h : exec i s = .next t) : t.key = s.key :=
  exec_unchanged h .key (by cases i <;> simp [writes])

theorem exec_cfg (h : exec i s = .next t) : t.cfg = s.cfg :=
  exec_unchanged h .cfg (by cases i <;> simp [writes])

/-- The instructions that write `DIRTY` set it (R23). -/
theorem exec_dirty (h : exec i s = .next t) : t.dirty = true ∨ t.dirty = s.dirty := by
  cases i with
  | scd | scr | scl | cls | low | high | drw | drwWide => cases h; exact .inl rfl
  | _ => exact .inr (exec_unchanged h .dirty (by simp [writes]))

/-- `EXIT` alone writes its flag, and sets it (R25). -/
theorem exec_exit (h : exec i s = .next t) : t.exit = true ∨ t.exit = s.exit := by
  cases i with
  | exit => cases h; exact .inl rfl
  | _ => exact .inr (exec_unchanged h .exit (by simp [writes]))

end

/-- Settles O58: a halted step changes nothing, an unrecognized word writes `ERR` alone, an instruction stays in its row. -/
theorem stepNeverClearsWhatTheHostClears : Obligations.StepNeverClearsWhatTheHostClears := by
  intro s t h
  obtain ⟨-, rfl⟩ | ⟨he, i, -, hexec⟩ | ⟨he, -, rfl⟩ := step_cases h
  · exact ⟨rfl, rfl, id, id, fun _ => rfl⟩
  · refine ⟨exec_key hexec, exec_cfg hexec, fun hd => ?_, fun hx => ?_, absurd he⟩
    · exact (exec_dirty hexec).elim id (·.trans hd)
    · exact (exec_exit hexec).elim id (·.trans hx)
  · exact ⟨rfl, rfl, id, id, absurd he⟩

end Sys2Proof.Machine
end

section
/-! PROOFS. No instruction reads `ST`, `DIRTY`, `EXIT` or `WAITING` (spec/10_state.md R18, R23, R25, R26). A state that agrees with
`s` on everything else is `s` with those four and the list that represents memory replaced; every instruction commutes with such a
replacement. -/

namespace Sys2Proof.Machine

/-- The items that no instruction reads. -/
abbrev statusOutputs : List Item := [.st, .dirty, .exit, .waiting]

/-! ### States that agree but for the status outputs -/

/-- `s` with other status outputs and another list of memory cells. -/
def State.withStatus (s : State) (st : Byte) (dirty exit waiting : Bool) (m : Memory) : State :=
  { s with st := st, dirty := dirty, exit := exit, waiting := waiting, mem := m }

theorem grid_ext {g h : Grid} (heq : ∀ x y, pixel h x y = pixel g x y) : h = g := by
  refine Vector.ext fun y hy => BitVec.eq_of_getLsbD_eq fun x _ => ?_
  simpa [pixel, rowAt, hy] using heq x y

theorem eq_withStatus_of_unchanged {s s' : State} (h : Unchanged statusOutputs s s') :
    s' = s.withStatus s'.st s'.dirty s'.exit s'.waiting s'.mem := by
  have hv : s'.v = s.v := State.v_ext (h .v (by simp))
  have hfb : s'.fb = s.fb := grid_ext (h .fb (by simp))
  have hi : s'.i = s.i := h .i (by simp)
  have hpc : s'.pc = s.pc := h .pc (by simp)
  have hsp : s'.sp = s.sp := h .sp (by simp)
  have hstack : s'.stack = s.stack := h .stack (by simp)
  have hdt : s'.dt = s.dt := h .dt (by simp)
  have hkey : s'.key = s.key := h .key (by simp)
  have hflags : s'.flags = s.flags := h .flags (by simp)
  have hmode : s'.mode = s.mode := h .mode (by simp)
  have herr : s'.err = s.err := h .err (by simp)
  have hcfg : s'.cfg = s.cfg := h .cfg (by simp)
  have hrnd : s'.rndIx = s.rndIx := h .rnd (by simp)
  rw [State.withStatus, ← hv, ← hfb, ← hi, ← hpc, ← hsp, ← hstack, ← hdt,
    ← hkey, ← hflags, ← hmode, ← herr, ← hcfg, ← hrnd]

theorem State.unchanged_withStatus {s : State} {st : Byte} {dirty exit waiting : Bool} {m : Memory}
    (hm : ∀ a, ({ s with mem := m }).readByte a = s.readByte a) :
    Unchanged statusOutputs s (s.withStatus st dirty exit waiting m) := by
  intro it hit
  cases it with
  | st | dirty | exit | waiting => simp at hit
  | mem => exact hm
  | v => exact fun _ => rfl
  | fb => exact fun _ _ => rfl
  | _ => rfl

/-! ### Updates keep the agreement -/

section
variable {l : List Item} {s s' : State}

theorem Unchanged.writeV_congr (h : Unchanged l s s') (r : RegIx) (b : Byte) : Unchanged l (s.writeV r b) (s'.writeV r b) := by
  intro it hit
  have hit := h it hit
  cases it with
  | v => exact fun q => by rw [State.readV_writeV, State.readV_writeV, hit q]
  | _ => exact hit

theorem Unchanged.writeByte_congr (h : Unchanged l s s') (a : Nat) (w : Byte) :
    Unchanged l (s.writeByte a w) (s'.writeByte a w) := by
  intro it hit
  have hit := h it hit
  cases it with
  | mem => exact fun b => by rw [State.readByte_writeByte, State.readByte_writeByte, hit b]
  | _ => exact hit

theorem Unchanged.advance_congr (h : Unchanged l s s') (hl : .pc ∉ l) : Unchanged l s.advance s'.advance := by
  intro it hit
  have hpc : s'.pc = s.pc := h .pc hl
  have hit := h it hit
  cases it with
  | pc => exact congrArg (pcPlus · 2) hpc
  | _ => exact hit

theorem Unchanged.writeFold_congr {α : Type} (h : Unchanged l s s') (reg : α → RegIx) (f : α → Byte) (ks : List α) :
    Unchanged l (ks.foldl (fun u k => u.writeV (reg k) (f k)) s) (ks.foldl (fun u k => u.writeV (reg k) (f k)) s') := by
  induction ks generalizing s s' with
  | nil => exact h
  | cons k ks ih => exact ih (h.writeV_congr (reg k) (f k))

theorem Unchanged.storeFold_congr (h : Unchanged l s s') (addr : Nat → Nat) (ps : List (Byte × Nat)) :
    Unchanged l (ps.foldl (fun u p => u.writeByte (addr p.2) p.1) s) (ps.foldl (fun u p => u.writeByte (addr p.2) p.1) s') := by
  induction ps generalizing s s' with
  | nil => exact h
  | cons p ps ih => exact ih (h.writeByte_congr _ _)

end

/-- Where an instruction reads memory or branches, it finds the same in both states; the rest is the same computation on the
other fields. -/
theorem exec_agrees (i : Instr) {s s' : State} (h : Unchanged statusOutputs s s') :
    ∃ t t', exec i s = .next t ∧ exec i s' = .next t' ∧ Unchanged statusOutputs t t' := by
  have hmem : ∀ a, s'.readByte a = s.readByte a := h .mem (by simp)
  have heq := eq_withStatus_of_unchanged h
  generalize s'.st = st, s'.dirty = dirty, s'.exit = exit, s'.waiting = waiting, s'.mem = m at heq
  subst heq
  cases i with
  | ret =>
    by_cases h0 : s.sp = 0
    · exact ⟨_, _, execRet_empty h0, execRet_empty h0, State.unchanged_withStatus hmem⟩
    · exact ⟨_, _, execRet_of_ne h0, execRet_of_ne h0, State.unchanged_withStatus hmem⟩
  | call addr =>
    by_cases h15 : s.sp = 15
    · exact ⟨_, _, execCall_full addr h15, execCall_full addr h15, State.unchanged_withStatus hmem⟩
    · exact ⟨_, _, execCall_of_ne addr h15, execCall_of_ne addr h15, State.unchanged_withStatus hmem⟩
  | ldVxK x =>
    cases hk : s.firstKey with
    | none => exact ⟨_, _, execLdVxK_of_none x hk, execLdVxK_of_none x hk, State.unchanged_withStatus hmem⟩
    | some k => exact ⟨_, _, execLdVxK_of_key x hk, execLdVxK_of_key x hk, State.unchanged_withStatus hmem⟩
  | addI x =>
    cases hc : s.cfg.addiCarry with
    | true => exact ⟨_, _, execAddI_of_carry x hc, execAddI_of_carry x hc, State.unchanged_withStatus hmem⟩
    | false => exact ⟨_, _, execAddI_of_noCarry x hc, execAddI_of_noCarry x hc, State.unchanged_withStatus hmem⟩
  | drw x y n =>
    have hbit : (s.withStatus st dirty exit waiting m).narrowBit = s.narrowBit := State.narrowBit_congr rfl hmem
    exact ⟨_, (s.withStatus st dirty exit waiting m).draw x y (spriteCells n.toNat 8 s.narrowBit), rfl, by rw [← hbit]; rfl,
      State.unchanged_withStatus hmem⟩
  | drwWide x y =>
    have hbit : (s.withStatus st dirty exit waiting m).wideBit = s.wideBit := State.wideBit_congr rfl hmem
    exact ⟨_, (s.withStatus st dirty exit waiting m).draw x y (if s.mode = .high then spriteCells 16 16 s.wideBit else []), rfl,
      by rw [← hbit]; rfl, State.unchanged_withStatus hmem⟩
  | ldB | storeRegs => exact ⟨_, _, rfl, rfl, (h.storeFold_congr _ _).advance_congr (by simp)⟩
  | loadRegs x =>
    have hload : exec (.loadRegs x) (s.withStatus st dirty exit waiting m) =
        .next ((regsUpTo x).foldl (fun u r => u.writeV r (s.readByte (s.dataAddr r.val)))
          (s.withStatus st dirty exit waiting m)).advance := by
      simp only [← hmem]; rfl
    exact ⟨_, _, rfl, hload, (h.writeFold_congr id _ _).advance_congr (by simp)⟩
  | loadFlags => exact ⟨_, _, rfl, rfl, (h.writeFold_congr slotReg _ flagSlots).advance_congr (by simp)⟩
  | _ => exact ⟨_, _, rfl, rfl, State.unchanged_withStatus hmem⟩

/-- Settles O57. -/
theorem statusOutputsAreNotRead : Obligations.StatusOutputsAreNotRead := by
  intro i s s' t h ht
  obtain ⟨u, u', hu, hu', hframe⟩ := exec_agrees i h
  obtain rfl : u = t := by rw [hu] at ht; cases ht; rfl
  exact ⟨u', hu', hframe⟩

end Sys2Proof.Machine
end

section
/-! PROOFS. The invariant (State.Inv, Safety.lean): it holds after `init`, every step and every host operation keep it, so it holds
of every state of an execution. -/

namespace Sys2Proof.Machine

/-! ### Grids confined to the active resolution -/

/-- Every cell outside the first `w` columns and `h` rows is off (R22). -/
def ConfinedTo (w h : Nat) (g : Grid) : Prop := ∀ x y, w ≤ x ∨ h ≤ y → pixel g x y = false

/-- A grid whose cells are on only inside is confined. -/
theorem ConfinedTo.of_inside {w h : Nat} {g : Grid} (hg : ∀ x y, pixel g x y = true → x < w ∧ y < h) : ConfinedTo w h g := by
  intro x y hout
  by_contra hp
  obtain ⟨hx, hy⟩ := hg x y (by simpa using hp)
  omega

section
variable {w h : Nat} (hw : w ≤ 128) (hh : h ≤ 64) (n : Nat) (g : Grid)
include hw hh

theorem confinedTo_scrollDown : ConfinedTo w h (scrollDown w h n g) := by
  refine .of_inside fun x y hp => ?_
  simp only [pixel_scrollDown hw hh, Bool.and_eq_true, decide_eq_true_eq] at hp
  exact hp.1.1

theorem confinedTo_scrollRight : ConfinedTo w h (scrollRight w h n g) := by
  refine .of_inside fun x y hp => ?_
  simp only [pixel_scrollRight hw hh, Bool.and_eq_true, decide_eq_true_eq] at hp
  exact hp.1.1

theorem confinedTo_scrollLeft : ConfinedTo w h (scrollLeft w h n g) := by
  refine .of_inside fun x y hp => ?_
  simp only [pixel_scrollLeft hw hh, Bool.and_eq_true, decide_eq_true_eq] at hp
  exact ⟨Nat.lt_of_add_right_lt hp.1.1, hp.1.2⟩

end

/-- The cells of a plotted pixel are active ones (R149: the rest is clipped). -/
theorem State.Plots.inside {s : State} {x y : RegIx} {rows cols : Nat} {bit : Nat → Nat → Bool} {px py : Nat}
    (h : s.Plots x y rows cols bit (if s.doubled then px / 2 else px) (if s.doubled then py / 2 else py)) :
    px < s.width ∧ py < s.height := by
  obtain ⟨hx, hy, -⟩ := h
  unfold State.doubled at hx hy
  unfold State.width State.height
  cases hl : s.cfg.loresDoubled <;> cases hm : s.mode <;> simp [hl, hm, logicalWidth, logicalHeight] at hx hy ⊢ <;> omega

/-! ### One step -/

/-- A machine that neither waits nor is halted owes nothing to the word at `PC`. -/
theorem State.Inv.of_running {t : State} (memory : Memory.wf (image t.cfg) t.mem = true) (regions : instanceOk t.cfg = true)
    (confined : t.Confined) (lastSlot : t.stack[15] = 0) (he : t.err = noErr) (hw : t.waiting = false) : t.Inv where
  memory := memory
  regions := regions
  confined := confined
  lastSlot := lastSlot
  waits := fun h => by simp [hw] at h
  fault := State.faultRecordTrue_of_noErr he

section
variable {s t : State} {i : Instr}

/-- A fault is taken where the machine does not wait. -/
theorem State.Inv.setErr (h : s.Inv) (hw : s.waiting = false) {e : ErrRecord}
    (he : ({ s with err := e } : State).FaultRecordTrue) : ({ s with err := e } : State).Inv :=
  ⟨h.memory, h.regions, h.confined, h.lastSlot, fun hwait => absurd (hw.symm.trans hwait) Bool.false_ne_true, he⟩

/-- The machine waits at a key wait only (R26). -/
theorem State.Inv.not_waiting (h : s.Inv) (hne : ∀ x, decodeWord (fetchWord s) ≠ some (.ldVxK x)) : s.waiting = false := by
  by_contra hw
  obtain ⟨-, x, hx⟩ := h.waits (by simpa using hw)
  exact hne x hx

theorem State.Inv.show (h : s.Inv) (he : s.err = noErr) (hw : s.waiting = false) {g : Grid}
    (hg : ConfinedTo s.width s.height g) : (s.show g).Inv :=
  .of_running h.memory h.regions hg h.lastSlot he hw

/-- A switch blanks the grid, so it is confined whatever the new resolution is. -/
theorem State.Inv.switchMode (h : s.Inv) (he : s.err = noErr) (hw : s.waiting = false) (m : Mode) :
    ({ s with mode := m }.show blank).Inv :=
  .of_running h.memory h.regions (fun x y _ => pixel_blank x y) h.lastSlot he hw

theorem State.Inv.draw (h : s.Inv) (he : s.err = noErr) (hw : s.waiting = false) (x y : RegIx) (rows cols : Nat)
    (bit : Nat → Nat → Bool) : (s.draw x y (spriteCells rows cols bit)).Inv := by
  have hconf : ConfinedTo s.width s.height (s.draw x y (spriteCells rows cols bit)).fb := by
    refine .of_inside fun px py hp => ?_
    by_cases hplot : s.Plots x y rows cols bit (if s.doubled then px / 2 else px) (if s.doubled then py / 2 else py)
    · exact hplot.inside
    · by_contra hout
      have hoff := h.confined px py (by omega)
      have hon := (s.draw_pixelAt x y rows cols bit px py).1 hp
      simp [hoff, hplot] at hon
  exact .of_running h.memory h.regions hconf h.lastSlot he hw

theorem State.Inv.storeAtI (h : s.Inv) (he : s.err = noErr) (hw : s.waiting = false) (l : List Byte) :
    (s.storeAtI l).advance.Inv := by
  rw [State.storeAtI_eq]
  exact .of_running (State.storeAtI_wf l h.memory) h.regions h.confined h.lastSlot he hw

/-- The key wait: with a key the machine runs on, without one it waits at this very word. -/
theorem exec_ldVxK_inv {x : RegIx} (h : s.Inv) (he : s.err = noErr) (hi : decodeWord (fetchWord s) = some (.ldVxK x))
    (ht : execLdVxK x s = .next t) : t.Inv := by
  cases hk : s.firstKey with
  | none =>
    rw [execLdVxK_of_none x hk] at ht
    cases ht
    exact ⟨h.memory, h.regions, h.confined, h.lastSlot, fun _ => ⟨he, x, hi⟩, State.faultRecordTrue_of_noErr he⟩
  | some k =>
    rw [execLdVxK_of_key x hk] at ht
    cases ht
    exact .of_running h.memory h.regions h.confined h.lastSlot he rfl

/-- `CALL` writes no slot but that of `SP`, which is not the last one; at depth 15 its fault record holds the fetched word. -/
theorem exec_call_inv {addr : Addr} (h : s.Inv) (he : s.err = noErr) (hw : s.waiting = false)
    (hi : decodeWord (fetchWord s) = some (.call addr)) (ht : execCall addr s = .next t) : t.Inv := by
  by_cases h15 : s.sp = 15
  · have hword : encode (.call addr) = fetchWord s := (encodeOfDecodeIsIdentity _ _ hi).1
    rw [execCall_full addr h15] at ht
    cases ht
    exact h.setErr hw ⟨hword, rfl, ⟨addr, hword ▸ hi⟩, h15⟩
  · have hne : s.sp.toNat ≠ 15 := fun hn => h15 (BitVec.eq_of_toNat_eq hn)
    have hslot : (s.stack.set s.sp.toNat s.pc s.sp.isLt)[15] = 0 := by
      rw [Vector.getElem_set_ne _ _ hne, h.lastSlot]
    rw [execCall_of_ne addr h15] at ht
    cases ht
    exact .of_running h.memory h.regions h.confined hslot he hw

theorem exec_ret_inv (h : s.Inv) (he : s.err = noErr) (hw : s.waiting = false) (hi : decodeWord (fetchWord s) = some .ret)
    (ht : execRet s = .next t) : t.Inv := by
  by_cases h0 : s.sp = 0
  · have hword : encode .ret = fetchWord s := (encodeOfDecodeIsIdentity _ _ hi).1
    rw [execRet_empty h0] at ht
    cases ht
    exact h.setErr hw ⟨hword, rfl, rfl, h0⟩
  · rw [execRet_of_ne h0] at ht
    cases ht
    exact .of_running h.memory h.regions h.confined h.lastSlot he hw

/-- Every instruction, fetched by a machine that does not wait. The default case writes nothing the invariant speaks of. -/
theorem exec_inv (h : s.Inv) (he : s.err = noErr) (hw : s.waiting = false) (hi : decodeWord (fetchWord s) = some i)
    (ht : exec i s = .next t) : t.Inv := by
  cases i with
  | ldVxK x => exact exec_ldVxK_inv h he hi ht
  | call addr => exact exec_call_inv h he hw hi ht
  | ret => exact exec_ret_inv h he hw hi ht
  | scd n => cases ht; exact h.show he hw (confinedTo_scrollDown s.width_le s.height_le _ _)
  | scr => cases ht; exact h.show he hw (confinedTo_scrollRight s.width_le s.height_le _ _)
  | scl => cases ht; exact h.show he hw (confinedTo_scrollLeft s.width_le s.height_le _ _)
  | cls => cases ht; exact h.show he hw fun x y _ => pixel_blank x y
  | low | high => cases ht; exact h.switchMode he hw _
  | drw x y n => cases ht; exact h.draw he hw x y _ _ _
  | drwWide x y =>
    cases hm : s.mode with
    | high =>
      cases (execDrwWide_high x y hm).symm.trans ht
      exact h.draw he hw x y _ _ _
    | low =>
      cases (execDrwWide_low x y hm).symm.trans ht
      exact .of_running h.memory h.regions h.confined h.lastSlot he hw
  | ldB | storeRegs => cases ht; exact h.storeAtI he hw _
  | loadRegs x =>
    cases ht
    rw [State.writeFold_eq]
    exact .of_running h.memory h.regions h.confined h.lastSlot he hw
  | loadFlags x =>
    cases ht
    rw [State.loadFromFlags_eq]
    exact .of_running h.memory h.regions h.confined h.lastSlot he hw
  | addI x =>
    cases hc : s.cfg.addiCarry with
    | true =>
      cases (execAddI_of_carry x hc).symm.trans ht
      exact .of_running h.memory h.regions h.confined h.lastSlot he hw
    | false =>
      cases (execAddI_of_noCarry x hc).symm.trans ht
      exact .of_running h.memory h.regions h.confined h.lastSlot he hw
  | _ => cases ht; exact .of_running h.memory h.regions h.confined h.lastSlot he hw

/-- A waiting machine polls again. -/
theorem exec_inv_of_waiting (h : s.Inv) (he : s.err = noErr) (hw : s.waiting = true) (hi : decodeWord (fetchWord s) = some i)
    (ht : exec i s = .next t) : t.Inv := by
  obtain ⟨-, x, hx⟩ := h.waits hw
  obtain rfl : i = .ldVxK x := Option.some.inj (hi.symm.trans hx)
  exact exec_ldVxK_inv h he hi ht

end

/-- Settles O12: a halted step changes nothing, an instruction keeps the invariant, and an unrecognized word leaves a
true record. -/
theorem stepKeepsInvariant : Obligations.StepKeepsInvariant := by
  intro s t h ht
  obtain ⟨-, rfl⟩ | ⟨he, i, hi, hexec⟩ | ⟨-, hi, rfl⟩ := step_cases ht
  · exact h
  · cases hw : s.waiting with
    | false => exact exec_inv h (h.fault.noErr he) hw hi hexec
    | true => exact exec_inv_of_waiting h (h.fault.noErr he) hw hi hexec
  · exact h.setErr (h.not_waiting fun x => by simp [hi]) ⟨rfl, rfl, hi⟩

/-! ### The host -/

theorem State.init_inv {c : Config.Instance} (hc : instanceOk c = true) (f : Vector Byte 8) (n : Nat) :
    ({ State.init c f with rndIx := n } : State).Inv :=
  .of_running rfl hc (fun x y _ => pixel_blank x y) rfl rfl rfl

/-- Settles O13: two operations answer a state after `init`, the others write nothing the invariant speaks of. -/
theorem hostOperationsKeepInvariant : Obligations.HostOperationsKeepInvariant := by
  intro op s t h ht
  cases op with
  | init c f =>
    obtain ⟨hc, rfl⟩ := hostInit_cases ht
    exact State.init_inv hc f _
  | reset => cases ht; exact State.init_inv h.regions s.flags _
  | tick | setKeys | clearDirty | requestExit =>
    cases ht
    exact ⟨h.memory, h.regions, h.confined, h.lastSlot, h.waits, h.fault⟩

/-- Settles O14: the default configuration has its regions in order and an empty `ROM`. -/
theorem resetMeetsInvariant : Obligations.ResetMeetsInvariant :=
  State.init_inv (c := defaultInstance) (by decide) defaultFlags 0

/-! ### Executions -/

/-- Settles O15, by induction on the execution. -/
theorem reachableStatesMeetInvariant : Obligations.ReachableStatesMeetInvariant := by
  intro s hs
  induction hs with
  | init c f hc => exact State.init_inv hc f 0
  | act e _ ht ih =>
    cases e with
    | step => exact stepKeepsInvariant _ _ ih ht
    | host op => exact hostOperationsKeepInvariant op _ _ ih ht

/-- No host operation but `init` writes the configuration (R6). -/
theorem hostAct_cfg {op : HostOp} {s t : State} (hop : ∀ d f, op ≠ .init d f) (h : hostAct op s = .next t) :
    t.cfg = s.cfg := by
  cases op with
  | init d f => exact absurd rfl (hop d f)
  | _ => cases h; rfl

/-- An execution that is not initialised anew keeps its configuration. -/
theorem RunsFrom.cfg_eq {c : Config.Instance} {s : State} (h : RunsFrom c s) : s.cfg = c := by
  induction h with
  | init => rfl
  | step _ ht ih => exact (stepNeverClearsWhatTheHostClears _ _ ht).2.1.trans ih
  | host op _ hop ht ih => exact (hostAct_cfg hop ht).trans ih

/-- Settles O18: `reset` is `init` of the configuration, which is still the one the execution began with. -/
theorem resetRestartsButKeepsFlags : Obligations.ResetRestartsButKeepsFlags := by
  intro c s f h
  refine ⟨s.hostReset, rfl, rfl, ?_⟩
  rw [State.hostReset, h.cfg_eq]
  exact State.unchanged_init c f s.flags s.rndIx

end Sys2Proof.Machine
end
